-- ==== Sys2Proof/Word.lean ====
section
/-! DEFINITION. The word types of the engine (00_scope R6, R10) and nothing else. -/

namespace Sys2Proof

/-- A byte of engine memory (20_memory R60). -/
abbrev Byte := BitVec 8

/-- A 32-bit word: a register-window word, COUNT, SEED, an integer element (00_scope R6). -/
abbrev Word := BitVec 32

/-- A 64-bit register value: an address, a length or RESULT (00_scope R6). -/
abbrev DWord := BitVec 64

/-- A 2-bit LengthCode (30_encoding R96). -/
abbrev LengthCode := BitVec 2

/-- `ceil4(n)`, the source's `ceil(n/4)` (00_scope R11). -/
def ceil4 (n : Nat) : Nat := (n + 3) / 4

end Sys2Proof
end

