-- ==== Sys2Proof/Syntax.lean ====
section
/-! DEFINITION. The engine's instructions: one constructor per command word of 30_encoding R90. -/

namespace Sys2Proof

/-- The five commands, in the order of opcode_table.json. A command word carries no operand
(30_encoding R93), so no constructor has an argument. -/
inductive Instr where
  /-- CAPACITY, word 0x0000_0001 (46_capacity R240). -/
  | capacity
  /-- ENCODE, word 0x0000_0002 (43_encode R180). -/
  | encode
  /-- DECODE, word 0x0000_0003 (44_decode R200). -/
  | decode
  /-- ENCODE_DELTA, word 0x0000_0004 (45_delta R220). -/
  | encodeDelta
  /-- DECODE_DELTA, word 0x0000_0005 (45_delta R226). -/
  | decodeDelta
  deriving DecidableEq, Repr

/-- The two fields of a command word (30_encoding R90): OP is bits 3:0, RES is bits 31:4. -/
structure CmdFields where
  op : BitVec 4
  res : BitVec 28
  deriving DecidableEq, Repr

end Sys2Proof
end

