-- ==== Sys2Proof/WellFormed.lean ====
section
/-! DEFINITION. The checks on a command word's fields (30_encoding R90, R92) and on an instruction. -/

namespace Sys2Proof

/-- RES "must be 0" (30_encoding R90). -/
abbrev CmdFields.reservedZero (f : CmdFields) : Prop := f.res = 0#28

/-- OP names one of the five operations; 0x0 and 0x6..0xF are illegal (30_encoding R92). -/
abbrev CmdFields.opDefined (f : CmdFields) : Prop := 1 ≤ f.op.toNat ∧ f.op.toNat ≤ 5

/-- The fields of a legal command word. -/
abbrev CmdFields.WellFormed (f : CmdFields) : Prop := f.reservedZero ∧ f.opDefined

/-- An instruction carries no operand (30_encoding R93), so there is nothing to check in one. -/
def Instr.WellFormed : Instr → Bool
  | .capacity => true
  | .encode => true
  | .decode => true
  | .encodeDelta => true
  | .decodeDelta => true

end Sys2Proof
end

