-- ==== Sys2Proof/Decode.lean ====
section
/-! DEFINITION. The decoder of command words (30_encoding R91), total on every 32-bit word, and after
it the encoder (30_encoding R90). -/

namespace Sys2Proof

/-- Why a word is no command (30_encoding R92); such a word classifies as ILLEGAL. -/
inductive DecodeError where
  /-- A bit of `w[31:4]` is set. -/
  | reservedBitsSet
  /-- OP is 0x0 or 0x6..0xF. -/
  | undefinedOp
  deriving DecidableEq, Repr

/-- The fields of a word: OP is `w[3:0]`, RES is `w[31:4]` (30_encoding R90). -/
def cmdFields (w : Word) : CmdFields :=
  ⟨w.extractLsb' 0 4, w.extractLsb' 4 28⟩

/-- The operation an OP value selects (30_encoding R90, R91). -/
def decodeOp (op : BitVec 4) : Except DecodeError Instr :=
  if op = 0x1#4 then .ok .capacity
  else if op = 0x2#4 then .ok .encode
  else if op = 0x3#4 then .ok .decode
  else if op = 0x4#4 then .ok .encodeDelta
  else if op = 0x5#4 then .ok .decodeDelta
  else .error .undefinedOp

/-- `Classify(w)` without its ILLEGAL case, which is the error (30_encoding R91). -/
def decode (w : Word) : Except DecodeError Instr :=
  if (cmdFields w).res = 0#28 then decodeOp (cmdFields w).op else .error .reservedBitsSet

/-- The word whose bits are `w`, of which `nbits` are given; the bits above are 0. The port moves one
whole 32-bit word (10_state R22), so there is no byte order to choose here. -/
def tableWord (nbits w : Nat) : Word := BitVec.ofNat 32 (w % 2 ^ nbits)

/-- The instruction the decoder reads from a table word (opcode_table.json). A command word has 32
bits, so a longer instruction does not exist. -/
def decodeTableWord (nbits w : Nat) : Option Instr :=
  if nbits ≤ 32 then (decode (tableWord nbits w)).toOption else none

/-- The OP value of an operation (30_encoding R90). -/
def encodeOp : Instr → BitVec 4
  | .capacity => 0x1#4
  | .encode => 0x2#4
  | .decode => 0x3#4
  | .encodeDelta => 0x4#4
  | .decodeDelta => 0x5#4

/-- The word of two fields: RES above OP (30_encoding R90). -/
def CmdFields.word (f : CmdFields) : Word := f.res ++ f.op

/-- The command word of an instruction: its OP, and RES = 0 (30_encoding R90). -/
def encode (i : Instr) : Word := CmdFields.word ⟨encodeOp i, 0#28⟩

end Sys2Proof
end

