-- ==== Sys2Proof/Machine/ControlCoder.lean ====
section
/-! DEFINITION. ControlCoder: length selection, control-byte packer and demultiplexer (41_control_coder).
Every function is total. -/

namespace Sys2Proof.Machine

/-- `lengthCode(v)`: the smallest `c` with `v < 256^(c+1)` (41_control_coder R140). -/
def lengthCode (v : Word) : LengthCode :=
  if v.toNat < 0x100 then 0#2
  else if v.toNat < 0x10000 then 1#2
  else if v.toNat < 0x1000000 then 2#2
  else 3#2

/-- `width(c) = c + 1` (41_control_coder R142). -/
def width (c : LengthCode) : Nat := c.toNat + 1

/-- `packControlByte`: code `k` in bits `2k+1:2k`, by shift and or (41_control_coder R143, 30_encoding
R95). A code has two bits, so the rule's `& 3` is its type. -/
def packControlByte (c0 c1 c2 c3 : LengthCode) : Byte :=
  c0.setWidth 8 ||| (c1.setWidth 8 <<< 2) ||| (c2.setWidth 8 <<< 4) ||| (c3.setWidth 8 <<< 6)

/-- Slot `k` of a control byte: `(b >> 2k) & 3` (41_control_coder R144). -/
def controlSlot (b : Byte) (k : Nat) : LengthCode := b.extractLsb' (2 * k) 2

/-- `unpackControlByte`: the four codes, slot 0 first (41_control_coder R144). -/
def unpackControlByte (b : Byte) : List LengthCode :=
  [controlSlot b 0, controlSlot b 1, controlSlot b 2, controlSlot b 3]

/-- The code the encoder puts in the slot of element `i`: a slot past the end is padding and holds 0
(41_control_coder R147, 30_encoding R99). -/
def slotCode (vals : List Word) (i : Nat) : LengthCode :=
  match vals[i]? with
  | some v => lengthCode v
  | none => 0#2

/-- `groupControlByte(vals, n, g)` with `n` the length of `vals` (41_control_coder R147). -/
def groupControlByte (vals : List Word) (g : Nat) : Byte :=
  packControlByte (slotCode vals (4 * g)) (slotCode vals (4 * g + 1)) (slotCode vals (4 * g + 2))
    (slotCode vals (4 * g + 3))

/-- `codeOf(C, i)`: slot `i mod 4` of control byte `i div 4` (41_control_coder R148). The decoder asks
only for elements whose control byte is there. -/
def codeOf (ctrl : List Byte) (i : Nat) : LengthCode :=
  controlSlot (ctrl.getD (i / 4) 0#8) (i % 4)

end Sys2Proof.Machine
end

