-- ==== Sys2Proof/Config.lean ====
section
/-! DEFINITION. The parameters of the platform (00_scope R7) and the free values: what the spec lets be
any value (93_implementation_defined I17, I18; log entries 5, 6, 7, 9, 14). -/

namespace Sys2Proof.Machine

/-- A byte range `[base, base + len)` (20_memory R62). -/
structure Region where
  base : Nat
  len : Nat
  deriving DecidableEq, Repr

/-- The cursors a command in flight keeps (10_state R40); the group index is `elem / 4`. -/
structure Cursors where
  elem : Nat
  ctrl : Nat
  data : Nat
  deriving DecidableEq, Repr, Inhabited

/-- What the platform fixes and no step changes. -/
structure Platform where
  /-- `MEM_SIZE` (00_scope R7, 20_memory R60). -/
  memSize : Nat
  /-- The windows of `M` that are not ordinary memory (20_memory R68, 93 I22). -/
  devices : List Region
  deriving DecidableEq, Repr

/-- The platform of `State.reset`: DESIGN CHOICE, log entries 2 and 13. Unsafe only for a claim about
`State.reset` itself: every other statement is over an arbitrary platform. -/
def Platform.default : Platform := { memSize := 2 ^ 64, devices := [] }

/-- `1 <= MEM_SIZE <= 2^64` (00_scope R7). -/
abbrev Platform.WellFormed (p : Platform) : Prop := 1 ≤ p.memSize ∧ p.memSize ≤ 2 ^ 64

end Sys2Proof.Machine

namespace Sys2Proof

/-- Free value: a destination byte left by an abandoned command, by draw and address
(70_reset_and_hazards R281, 93 I17). -/
opaque Config.freeByte : Nat → Nat → Byte

/-- Free value: a word the spec does not state, by draw: PREV (93 I18), a read no engine answers
(10_state R34). -/
opaque Config.freeWord : Nat → Word

/-- Free value: the cursors between commands and after reset, by draw (93 I18). -/
opaque Config.freeCursors : Nat → Machine.Cursors

end Sys2Proof
end

