-- ==== Sys2Proof/Machine/State.lean ====
section
/-! DEFINITION. The machine's state (10_state R20), why a step can stop, and the state after reset. -/

namespace Sys2Proof.Machine

/-- The sixteen words of the register window (10_state R21). -/
inductive Reg where
  | cmd
  | status
  | count
  | seed
  | srcAddrLo
  | srcAddrHi
  | srcLenLo
  | srcLenHi
  | dstAddrLo
  | dstAddrHi
  | dstLenLo
  | dstLenHi
  | resultLo
  | resultHi
  | reserved38
  | reserved3C
  deriving DecidableEq, Repr

/-- The 64-bit registers, each two words of the window (10_state R21). -/
inductive Reg64 where
  | srcAddr
  | srcLen
  | dstAddr
  | dstLen
  | result
  deriving DecidableEq, Repr

/-- The error codes a command can end with (60_exceptions R250). -/
inductive ErrorCode where
  | bufferTooSmall
  | formatError
  | accessFault
  | illegalCmd
  deriving DecidableEq, Repr

/-- What PENDING holds when it is not `none` (10_state R38). -/
inductive PendingOp where
  | command (i : Instr)
  | illegal
  deriving DecidableEq, Repr

/-- One engine: its register window and its hidden state (10_state R20). CMD and the two reserved
words hold no state (R24, R34). -/
structure Engine where
  /-- `BASE / 4`, where `BASE` is the address of the register window (00_scope R7); a parameter, changed by no
  step. The port moves aligned words (10_state R22), so `BASE` is a multiple of 4: DEDUCED, log entry 21. -/
  baseWord : Nat
  /-- STATUS, the whole word (10_state R25). -/
  status : Word
  /-- COUNT (10_state R27). -/
  count : Word
  /-- SEED (10_state R28). -/
  seed : Word
  /-- SRC_ADDR (10_state R29). -/
  srcAddr : DWord
  /-- SRC_LEN (10_state R30). -/
  srcLen : DWord
  /-- DST_ADDR (10_state R31). -/
  dstAddr : DWord
  /-- DST_LEN (10_state R32). -/
  dstLen : DWord
  /-- RESULT (10_state R33). -/
  result : DWord
  /-- PENDING (10_state R38). -/
  pending : Option PendingOp
  /-- PREV, the delta accumulator (10_state R39). -/
  prev : Word
  /-- The cursors (10_state R40). -/
  cursors : Cursors
  deriving DecidableEq, Repr

/-- Engine memory: the listed bytes, in the canonical form `Memory.wf` of Machine/Memory.lean. -/
abbrev Memory := List Host.Cell

/-- The host's actions (30_encoding R101, 70_reset_and_hazards R295). An engine is named by its
number: 0 is the focused engine, `k + 1` is the `k`-th peer. WR and RD name a whole aligned word by the number
of the word, so no sub-word or misaligned access can be written (10_state R22, 93 I23). -/
inductive HostAction where
  /-- `WR`: write one whole word, the one at host address `4 * word`. -/
  | wr (word : Nat) (data : Word)
  /-- `RD`: read one whole word, the one at host address `4 * word`. -/
  | rd (word : Nat)
  /-- `MW`: write bytes to `M` from `addr` upward. -/
  | mw (addr : Nat) (bytes : List Byte)
  /-- `MR`: read `n` bytes of `M`. -/
  | mr (addr : Nat) (n : Nat)
  /-- `RESET`: assert and release an engine's reset (70_reset_and_hazards R280). -/
  | reset (inst : Nat)
  /-- `POLL`: `RD STATUS` until BUSY reads 0 (30_encoding R102). -/
  | poll (inst : Nat)
  deriving DecidableEq, Repr

/-- Who takes a step (00_scope R8). -/
inductive Agent where
  | host
  | engine (inst : Nat)
  deriving DecidableEq, Repr

/-- What a host read gives back (70_reset_and_hazards R295). -/
inductive Reading where
  | word (w : Word)
  | bytes (bs : List Byte)
  deriving DecidableEq, Repr

/-- The machine: the engines, the memory they share with the host, the platform's parameters, and the
host interface. -/
structure State where
  /-- The focused engine: the one whose command `exec` completes. -/
  engine : Engine
  /-- The platform's other engines (60_exceptions R265). -/
  peers : List Engine
  /-- Engine memory `M` (20_memory R60). -/
  mem : Memory
  /-- The parameters (00_scope R7). -/
  platform : Platform
  /-- The host's actions still to be taken, first one first. -/
  script : List HostAction
  /-- The order of the agents' next steps (70_reset_and_hazards R292). -/
  schedule : List Agent
  /-- What the host has read so far, oldest first. -/
  reads : List Reading
  /-- How many free values have been drawn; the model's own field (log entry 14). -/
  draws : Nat
  deriving DecidableEq, Repr

/-- Why the machine stops with a fault. Both are the model's own stops for host actions that act on
something that does not exist; no command raises one. -/
inductive Fault where
  /-- Raised by the host actions MW and MR when the bytes are not all in `[0, MEM_SIZE)`: `M` has no
  such byte (20_memory R60). Safe: log entry 10. -/
  | hostAddressOutsideMemory
  /-- Raised by the host actions RESET and POLL when the platform has no engine of that number
  (60_exceptions R265). Safe: log entry 11. -/
  | noSuchEngine
  deriving DecidableEq, Repr

/-- Why the model gives a step no meaning. -/
inductive Refusal where
  /-- An instruction whose meaning is not written yet; raised by no arm of this model. Safe. -/
  | notModelled (mnemonic : String)
  /-- Raised by a memory command whose non-empty source and destination regions share an address
  (20_memory R71, 70_reset_and_hazards R287). Safe. -/
  | overlappingRegions
  /-- Raised by a memory command, and by the host actions MW and MR, when a region touches a device
  window of `M` (20_memory R68, 93 I22). Safe: log entry 13. -/
  | deviceMemory
  /-- Raised by the host actions MW and MR on a region of a command in flight
  (70_reset_and_hazards R286). Safe. -/
  | hostHazard
  /-- Raised by the host write to CMD that would put two engines' conflicting regions in flight
  (60_exceptions R265). Safe: log entry 12. -/
  | engineConflict
  deriving DecidableEq, Repr

/-- An engine at power-on: every register 0, PENDING `none` (10_state R41, 70_reset_and_hazards R282).
PREV, the cursors and BASE have no reset value in the spec: DESIGN CHOICE 0, log entries 5, 6, 3. -/
def Engine.powerOn : Engine :=
  { baseWord := 0
    status := 0#32
    count := 0#32
    seed := 0#32
    srcAddr := 0#64
    srcLen := 0#64
    dstAddr := 0#64
    dstLen := 0#64
    result := 0#64
    pending := none
    prev := 0#32
    cursors := ⟨0, 0, 0⟩ }

/-- The machine right after reset (70_reset_and_hazards R280, R282): memory lists nothing, one engine,
no host action waiting (log entries 1, 2, 3, 4, 8). -/
def State.reset : State :=
  { engine := Engine.powerOn
    peers := []
    mem := []
    platform := Platform.default
    script := []
    schedule := []
    reads := []
    draws := 0 }

end Sys2Proof.Machine
end

