-- ==== Sys2Proof/Machine/Memory.lean ====
section
/-! DEFINITION. Engine memory `M` (20_memory R60): bytes by address in one canonical form, and the
little-endian accesses built from them (00_scope R13, 20_memory R66). -/

namespace Sys2Proof.Machine

/-- What an address that is not listed reads as. The contents of `M` at power-on are the platform's
(70_reset_and_hazards R282): DESIGN CHOICE 0, log entry 4. -/
def Memory.unlisted : Byte := 0#8

/-- The canonical form: addresses strictly rising, and no entry equal to what an unlisted address reads
as, so that equal memories are equal lists. -/
abbrev Memory.wf (m : Memory) : Prop :=
  m.Pairwise (fun x y => x.1 < y.1) ∧ ∀ c ∈ m, c.2 ≠ Memory.unlisted

/-- Every listed address is below `size` (20_memory R60). -/
abbrev Memory.below (m : Memory) (size : Nat) : Prop := ∀ c ∈ m, c.1 < size

/-- `M[a]` (00_scope R13). -/
def Memory.read : Memory → Nat → Byte
  | [], _ => Memory.unlisted
  | (x, b) :: m, a => if x = a then b else Memory.read m a

/-- The memory without its entry for `a`. -/
def Memory.erase : Memory → Nat → Memory
  | [], _ => []
  | (x, b) :: m, a => if x = a then Memory.erase m a else (x, b) :: Memory.erase m a

/-- A new entry at its place in the rising order. -/
def Memory.insert : Memory → Nat → Byte → Memory
  | [], a, v => [(a, v)]
  | (x, b) :: m, a, v => if a < x then (a, v) :: (x, b) :: m else (x, b) :: Memory.insert m a v

/-- `M[a] <- v`. Writing what an unlisted address reads as removes the entry. -/
def Memory.write (m : Memory) (a : Nat) (v : Byte) : Memory :=
  if v = Memory.unlisted then m.erase a else (m.erase a).insert a v

/-- The `n` bytes from `a` upward. -/
def Memory.readBytes (m : Memory) (a : Nat) : Nat → List Byte
  | 0 => []
  | n + 1 => m.read a :: Memory.readBytes m (a + 1) n

/-- The bytes stored from `a` upward. -/
def Memory.writeBytes (m : Memory) (a : Nat) : List Byte → Memory
  | [] => m
  | b :: bs => Memory.writeBytes (m.write a b) (a + 1) bs

/-- The `n` bytes from `a` upward replaced by the bytes `f` gives for their addresses. -/
def Memory.fill (m : Memory) (f : Nat → Byte) (a : Nat) : Nat → Memory
  | 0 => m
  | n + 1 => Memory.fill (m.write a (f a)) f (a + 1) n

/-- The bytes of `v`, least significant first: byte `k` is `v[8k+7:8k]` (00_scope R13). The one place
where the byte order of a written value is decided (20_memory R66). -/
def leBytes : Nat → Nat → List Byte
  | 0, _ => []
  | n + 1, v => BitVec.ofNat 8 v :: leBytes n (v / 256)

/-- `sum_k bs[k] * 256^k` (00_scope R13). The one place where the byte order of a read value is decided
(20_memory R66). -/
def leValue : List Byte → Nat
  | [] => 0
  | b :: bs => b.toNat + 256 * leValue bs

/-- `IntRead(a, i)` (20_memory R65). -/
def Memory.readInt (m : Memory) (a i : Nat) : Word :=
  BitVec.ofNat 32 (leValue (m.readBytes (a + 4 * i) 4))

/-- The integer sequence of `n` elements at `a` (20_memory R65). -/
def Memory.readInts (m : Memory) (a n : Nat) : List Word :=
  (List.range n).map (m.readInt a)

/-- The bytes of an integer sequence in its layout (20_memory R65): those of `IntWrite(a, i, v)` for each
element in order. -/
def intBytes : List Word → List Byte
  | [] => []
  | v :: vs => leBytes 4 v.toNat ++ intBytes vs

/-- `IntWrite(a, i, vals[i])` for every element (20_memory R65). -/
def Memory.writeInts (m : Memory) (a : Nat) (vals : List Word) : Memory :=
  m.writeBytes a (intBytes vals)

end Sys2Proof.Machine
end

