-- ==== Sys2Proof/Machine/DataStream.lean ====
section
/-! DEFINITION. DataStreamCodec (42_data_stream) and the pure stream functions built on it: EncodeStream
(43_encode R183), DecodeStream (44_decode R201), the delta passes (45_delta R221, R227) and the capacity
bound (46_capacity R240). -/

namespace Sys2Proof.Machine

/-- `maxCompressedBytes(n) = ceil4(n) + 4*n`, exact (46_capacity R240). -/
def maxCompressedBytes (n : Nat) : Nat := ceil4 n + 4 * n

/-- The byte string of `writeValue(v, c)`: the `c + 1` low bytes of `v`, low byte first
(42_data_stream R160). -/
def writeValue (v : Word) (c : LengthCode) : List Byte := leBytes (width c) v.toNat

/-- `readValue(B, p, c)`: the value and its width; `none` is FormatError (42_data_stream R161). -/
def readValue (bytes : List Byte) (p : Nat) (c : LengthCode) : Option (Word × Nat) :=
  if bytes.length < p + width c then none
  else some (BitVec.ofNat 32 (leValue ((bytes.drop p).take (width c))), width c)

/-- The control region of `vals`: one byte per group, in group order (43_encode R183). -/
def controlRegion (vals : List Word) : List Byte :=
  (List.range (ceil4 vals.length)).map (groupControlByte vals)

/-- The data region of `vals`: each value in its own width, in element order (43_encode R183). -/
def dataRegion : List Word → List Byte
  | [] => []
  | v :: vs => writeValue v (lengthCode v) ++ dataRegion vs

/-- `EncodeStream(vals, n)`: the control region, then the data region (43_encode R183, 30_encoding R94). -/
def encodeStream (vals : List Word) : List Byte := controlRegion vals ++ dataRegion vals

/-- The element loop of `DecodeStream` for the `k` elements from element `i` on, with the data cursor at
`p`; `none` is FormatError (44_decode R201). -/
def decodeElements (bytes ctrl : List Byte) : Nat → Nat → Nat → Option (List Word × Nat)
  | 0, _, p => some ([], p)
  | k + 1, i, p =>
    match readValue bytes p (codeOf ctrl i) with
    | none => none
    | some (v, w) =>
      match decodeElements bytes ctrl k (i + 1) (p + w) with
      | none => none
      | some (vs, q) => some (v :: vs, q)

/-- `DecodeStream(B, n)`: the values and the bytes consumed; `none` is FormatError (44_decode R201). -/
def decodeStream (bytes : List Byte) (n : Nat) : Option (List Word × Nat) :=
  if n = 0 then some ([], 0)
  else if bytes.length < ceil4 n then none
  else decodeElements bytes (bytes.take (ceil4 n)) n 0 (ceil4 n)

/-- `DeltaTransform(vals, n, seed)`: the first argument is PREV, which takes the original value after each
element (45_delta R221). -/
def deltaTransform (prev : Word) : List Word → List Word
  | [] => []
  | v :: vs => (v - prev) :: deltaTransform v vs

/-- `DeltaAccumulate(d, n, seed)`: the first argument is PREV, which takes each value as it is emitted
(45_delta R227). -/
def deltaAccumulate (prev : Word) : List Word → List Word
  | [] => []
  | d :: ds => (prev + d) :: deltaAccumulate (prev + d) ds

end Sys2Proof.Machine
end

