-- ==== Sys2Proof/Machine/Flags.lean ====
section
/-! DEFINITION. STATUS, the only flags the engine has (10_state R25, R37): its fields and its word. -/

namespace Sys2Proof.Machine

/-- `STATUS.BUSY`, bit 0 (10_state R25). -/
def statusBusy (w : Word) : Bool := w.getLsbD 0

/-- `STATUS.DONE`, bit 1 (10_state R25). -/
def statusDone (w : Word) : Bool := w.getLsbD 1

/-- `STATUS.ERR`, bits 7:4 (10_state R25). -/
def statusErr (w : Word) : BitVec 4 := w.extractLsb' 4 4

/-- The word of the three fields; bits 3:2 and 31:8 read 0 (10_state R25). -/
def statusWord (busy done : Bool) (err : BitVec 4) : Word :=
  (0#24 ++ err ++ 0#2 ++ BitVec.ofBool done ++ BitVec.ofBool busy : BitVec (24 + 4 + 2 + 1 + 1))

/-- The code of success (60_exceptions R250). -/
def noError : BitVec 4 := 0#4

/-- The code of an error (60_exceptions R250). -/
def errorCode : ErrorCode → BitVec 4
  | .bufferTooSmall => 1#4
  | .formatError => 2#4
  | .accessFault => 3#4
  | .illegalCmd => 4#4

/-- `STATUS.BUSY` of an engine. -/
def Engine.busy (e : Engine) : Bool := statusBusy e.status

/-- `STATUS.DONE` of an engine. -/
def Engine.done (e : Engine) : Bool := statusDone e.status

/-- `STATUS.ERR` of an engine. -/
def Engine.err (e : Engine) : BitVec 4 := statusErr e.status

end Sys2Proof.Machine
end

