-- ==== Sys2Proof/Machine/Operands.lean ====
section
/-! DEFINITION. Operands (10_state R35, 30_encoding R93): the register window's words, the 64-bit
registers as {HI, LO}, and the regions of each command (20_memory R62 to R64). -/

namespace Sys2Proof.Machine

/-- The offset of a word in the window (10_state R21). -/
def Reg.offset : Reg → Nat
  | .cmd => 0x00
  | .status => 0x04
  | .count => 0x08
  | .seed => 0x0C
  | .srcAddrLo => 0x10
  | .srcAddrHi => 0x14
  | .srcLenLo => 0x18
  | .srcLenHi => 0x1C
  | .dstAddrLo => 0x20
  | .dstAddrHi => 0x24
  | .dstLenLo => 0x28
  | .dstLenHi => 0x2C
  | .resultLo => 0x30
  | .resultHi => 0x34
  | .reserved38 => 0x38
  | .reserved3C => 0x3C

/-- The word at an offset. An offset that is no multiple of 4, or is outside 0x00..0x3C, names no word
(10_state R22). -/
def Reg.ofOffset (o : Nat) : Option Reg :=
  if o = 0x00 then some .cmd
  else if o = 0x04 then some .status
  else if o = 0x08 then some .count
  else if o = 0x0C then some .seed
  else if o = 0x10 then some .srcAddrLo
  else if o = 0x14 then some .srcAddrHi
  else if o = 0x18 then some .srcLenLo
  else if o = 0x1C then some .srcLenHi
  else if o = 0x20 then some .dstAddrLo
  else if o = 0x24 then some .dstAddrHi
  else if o = 0x28 then some .dstLenLo
  else if o = 0x2C then some .dstLenHi
  else if o = 0x30 then some .resultLo
  else if o = 0x34 then some .resultHi
  else if o = 0x38 then some .reserved38
  else if o = 0x3C then some .reserved3C
  else none

/-- The low word of a 64-bit register, at the lower offset (10_state R21). -/
def Reg64.lo : Reg64 → Reg
  | .srcAddr => .srcAddrLo
  | .srcLen => .srcLenLo
  | .dstAddr => .dstAddrLo
  | .dstLen => .dstLenLo
  | .result => .resultLo

/-- The high word of a 64-bit register. -/
def Reg64.hi : Reg64 → Reg
  | .srcAddr => .srcAddrHi
  | .srcLen => .srcLenHi
  | .dstAddr => .dstAddrHi
  | .dstLen => .dstLenHi
  | .result => .resultHi

/-- Bits 31:0 of a 64-bit register. -/
def loWord (v : DWord) : Word := v.extractLsb' 0 32

/-- Bits 63:32 of a 64-bit register. -/
def hiWord (v : DWord) : Word := v.extractLsb' 32 32

/-- `{hi, lo}` (00_scope R10, R12). -/
def hiLo (hi lo : Word) : DWord := hi ++ lo

/-- The register with its low word replaced. -/
def setLo (v : DWord) (w : Word) : DWord := hiLo (hiWord v) w

/-- The register with its high word replaced. -/
def setHi (v : DWord) (w : Word) : DWord := hiLo w (loWord v)

/-- The value of a 64-bit register. -/
def Engine.read64 (e : Engine) : Reg64 → DWord
  | .srcAddr => e.srcAddr
  | .srcLen => e.srcLen
  | .dstAddr => e.dstAddr
  | .dstLen => e.dstLen
  | .result => e.result

/-- A host read of a register word: it changes nothing, and CMD and the reserved words read 0
(10_state R22, R24, R34). -/
def Engine.readReg (e : Engine) : Reg → Word
  | .cmd => 0#32
  | .status => e.status
  | .count => e.count
  | .seed => e.seed
  | .srcAddrLo => loWord e.srcAddr
  | .srcAddrHi => hiWord e.srcAddr
  | .srcLenLo => loWord e.srcLen
  | .srcLenHi => hiWord e.srcLen
  | .dstAddrLo => loWord e.dstAddr
  | .dstAddrHi => hiWord e.dstAddr
  | .dstLenLo => loWord e.dstLen
  | .dstLenHi => hiWord e.dstLen
  | .resultLo => loWord e.result
  | .resultHi => hiWord e.result
  | .reserved38 => 0#32
  | .reserved3C => 0#32

/-- A host write to a word other than CMD while BUSY = 0: an RW word takes the value whole; STATUS, RESULT
and the reserved words ignore it (10_state R22, R23). A write to CMD is an accept and is not this. -/
def Engine.storeReg (e : Engine) (r : Reg) (w : Word) : Engine :=
  match r with
  | .cmd => e
  | .status => e
  | .count => { e with count := w }
  | .seed => { e with seed := w }
  | .srcAddrLo => { e with srcAddr := setLo e.srcAddr w }
  | .srcAddrHi => { e with srcAddr := setHi e.srcAddr w }
  | .srcLenLo => { e with srcLen := setLo e.srcLen w }
  | .srcLenHi => { e with srcLen := setHi e.srcLen w }
  | .dstAddrLo => { e with dstAddr := setLo e.dstAddr w }
  | .dstAddrHi => { e with dstAddr := setHi e.dstAddr w }
  | .dstLenLo => { e with dstLen := setLo e.dstLen w }
  | .dstLenHi => { e with dstLen := setHi e.dstLen w }
  | .resultLo => e
  | .resultHi => e
  | .reserved38 => e
  | .reserved3C => e

/-- Whether `a` is an address of the region (20_memory R62). -/
def Region.contains (r : Region) (a : Nat) : Bool := decide (r.base ≤ a) && decide (a < r.base + r.len)

/-- `RegionOK(a, len)`: `len = 0 or a + len <= MEM_SIZE`, in exact arithmetic (20_memory R63). -/
def Region.ok (r : Region) (memSize : Nat) : Bool := decide (r.len = 0) || decide (r.base + r.len ≤ memSize)

/-- Whether two regions are both non-empty and share an address (20_memory R71). -/
def Region.overlaps (r t : Region) : Bool :=
  decide (0 < r.len) && decide (0 < t.len) && decide (r.base < t.base + t.len)
    && decide (t.base < r.base + r.len)

/-- Whether a region touches a device window of the platform (20_memory R68, 93 I22). -/
def Platform.touchesDevice (p : Platform) (r : Region) : Bool := p.devices.any r.overlaps

/-- `4 * COUNT`, exact (30_encoding R93). -/
def Engine.arrayLen (e : Engine) : Nat := 4 * e.count.toNat

/-- Source of ENCODE and ENCODE_DELTA: the integer array `(SRC_ADDR, 4*n)` (20_memory R64). -/
def Engine.encodeSource (e : Engine) : Region := ⟨e.srcAddr.toNat, e.arrayLen⟩

/-- Destination of ENCODE and ENCODE_DELTA: the output buffer `(DST_ADDR, DST_LEN)` (20_memory R64). -/
def Engine.encodeDest (e : Engine) : Region := ⟨e.dstAddr.toNat, e.dstLen.toNat⟩

/-- Source of DECODE and DECODE_DELTA: the encoded buffer `(SRC_ADDR, SRC_LEN)` (20_memory R64). -/
def Engine.decodeSource (e : Engine) : Region := ⟨e.srcAddr.toNat, e.srcLen.toNat⟩

/-- Destination of DECODE and DECODE_DELTA: the integer array `(DST_ADDR, 4*n)` (20_memory R64). -/
def Engine.decodeDest (e : Engine) : Region := ⟨e.dstAddr.toNat, e.arrayLen⟩

/-- The source and destination regions of a command; CAPACITY has none (20_memory R64). -/
def Engine.regions (e : Engine) : Instr → Option (Region × Region)
  | .capacity => none
  | .encode => some (e.encodeSource, e.encodeDest)
  | .decode => some (e.decodeSource, e.decodeDest)
  | .encodeDelta => some (e.encodeSource, e.encodeDest)
  | .decodeDelta => some (e.decodeSource, e.decodeDest)

/-- The regions of the command in flight, if it is a memory command with `COUNT > 0`
(70_reset_and_hazards R286). -/
def Engine.inFlight (e : Engine) : Option (Region × Region) :=
  match e.pending with
  | none => none
  | some .illegal => none
  | some (.command i) => if e.count = 0#32 then none else e.regions i

end Sys2Proof.Machine
end

