-- ==== Sys2Proof/Machine/Ops.lean ====
section
/-! DEFINITION. The operations every command shares (40_command_cycle): accept, the ordered checks, the
completion, and raising an error, which is the engine's exception entry (60_exceptions R256). There is no
return from it (60_exceptions R258): STATUS keeps the error until the next accept or reset. -/

namespace Sys2Proof.Machine

/-- `Classify(w)` (30_encoding R91). -/
def classify (w : Word) : PendingOp :=
  match decode w with
  | .ok i => .command i
  | .error _ => .illegal

/-- Accepting the word `w` (40_command_cycle R121). -/
def Engine.accept (e : Engine) (w : Word) : Engine :=
  { e with pending := some (classify w), status := statusWord true false noError, result := 0#64 }

/-- The register effects of a completion with an error code and a result (40_command_cycle R124, R126). -/
def Engine.complete (e : Engine) (err : BitVec 4) (result : DWord) : Engine :=
  { e with status := statusWord false true err, result := result, pending := none }

/-- Completion with success and a result (40_command_cycle R124). -/
def State.completeOk (s : State) (result : Nat) : State :=
  { s with engine := s.engine.complete noError (BitVec.ofNat 64 result) }

/-- `raise Error(code)`: RESULT 0, ERR the code, DONE 1, BUSY 0, PENDING `none`, and nothing else: no byte of
`M`, no other register (60_exceptions R256, R257). -/
def State.raiseError (s : State) (code : ErrorCode) : State :=
  { s with engine := s.engine.complete (errorCode code) 0#64 }

/-- The completion of an illegal word (60_exceptions R254). -/
def State.completeIllegal (s : State) : State := s.raiseError .illegalCmd

/-- A command that ran its element loops leaves the cursors at any value (10_state R40, 93 I18; log
entry 6). -/
def State.releaseCursors (s : State) : State :=
  { s with engine := { s.engine with cursors := Config.freeCursors s.draws }, draws := s.draws + 1 }

/-- A delta command leaves PREV at any value: it is "not persisted beyond one call" (10_state R39, 93 I18;
log entry 5). -/
def State.releasePrev (s : State) : State :=
  { s with engine := { s.engine with prev := Config.freeWord s.draws }, draws := s.draws + 1 }

/-- Steps 3 to 5 of `Execute` for a memory command with the regions `src` and `dst`, then `run`, which is
step 6 (40_command_cycle R125). A region in device memory is refused beside step 5 (20_memory R68; log
entry 13). -/
def State.guarded (s : State) (src dst : Region) (run : State → State) :
    Host.Outcome State Fault Refusal :=
  if s.engine.count = 0#32 then .next (s.completeOk 0)
  else if (src.ok s.platform.memSize && dst.ok s.platform.memSize) = false then
    .next (s.raiseError .accessFault)
  else if src.overlaps dst = true then .refused .overlappingRegions
  else if (s.platform.touchesDevice src || s.platform.touchesDevice dst) = true then
    .refused .deviceMemory
  else .next (run s.releaseCursors)

/-- `[ IntRead(SRC_ADDR, i) for i in 0 .. n-1 ]` (43_encode R181). -/
def State.sourceInts (s : State) : List Word :=
  s.mem.readInts s.engine.srcAddr.toNat s.engine.count.toNat

/-- `[ M[SRC_ADDR + j] for j in 0 .. SRC_LEN-1 ]` (44_decode R202). -/
def State.sourceBytes (s : State) : List Byte :=
  s.mem.readBytes s.engine.srcAddr.toNat s.engine.srcLen.toNat

/-- `DecodeStream` of the source bytes with `n = COUNT` (44_decode R202). -/
def State.sourceDecoded (s : State) : Option (List Word × Nat) :=
  decodeStream s.sourceBytes s.engine.count.toNat

/-- The rest of `EncodeCmd` for the values to encode: the capacity check, then the encoded bytes at
DST_ADDR and their number as the result (43_encode R181, R182). -/
def State.storeEncoded (s : State) (vals : List Word) : State :=
  if s.engine.dstLen.toNat < maxCompressedBytes s.engine.count.toNat then s.raiseError .bufferTooSmall
  else
    State.completeOk
      { s with mem := s.mem.writeBytes s.engine.dstAddr.toNat (encodeStream vals) }
      (encodeStream vals).length

/-- The rest of `DecodeCmd` for the decoded stream: FORMAT_ERROR, or the values as an integer array at
DST_ADDR and the bytes consumed as the result (44_decode R202). -/
def State.storeDecoded (s : State) (decoded : Option (List Word × Nat)) : State :=
  match decoded with
  | none => s.raiseError .formatError
  | some (vals, consumed) =>
    State.completeOk { s with mem := s.mem.writeInts s.engine.dstAddr.toNat vals } consumed

end Sys2Proof.Machine
end

