-- ==== Sys2Proof/Machine/Capacity.lean ====
section
/-! DEFINITION. CapacityEstimator: the command CAPACITY (46_capacity). -/

namespace Sys2Proof.Machine

/-- CAPACITY: RESULT <- maxCompressedBytes(COUNT), success; no check and no memory (46_capacity R240,
40_command_cycle R125 step 2). -/
def execCapacity (s : State) : Host.Outcome State Fault Refusal :=
  .next (s.completeOk (maxCompressedBytes s.engine.count.toNat))

end Sys2Proof.Machine
end

