-- ==== Sys2Proof/Machine/Decode.lean ====
section
/-! DEFINITION. BaseDecoder: the command DECODE (44_decode). -/

namespace Sys2Proof.Machine

/-- DECODE: the shared checks, then `DecodeCmd` (44_decode R200, R202). -/
def execDecode (s : State) : Host.Outcome State Fault Refusal :=
  s.guarded s.engine.decodeSource s.engine.decodeDest fun t => t.storeDecoded t.sourceDecoded

end Sys2Proof.Machine
end

