-- ==== Sys2Proof/Machine/Delta.lean ====
section
/-! DEFINITION. DeltaCodec: the commands ENCODE_DELTA and DECODE_DELTA (45_delta). PREV starts at SEED and
is threaded through the pass as the first argument of `deltaTransform` and `deltaAccumulate`. -/

namespace Sys2Proof.Machine

/-- ENCODE_DELTA: the shared checks, then `EncodeDeltaCmd` (45_delta R220, R221). -/
def execEncodeDelta (s : State) : Host.Outcome State Fault Refusal :=
  s.guarded s.engine.encodeSource s.engine.encodeDest fun t =>
    (t.storeEncoded (deltaTransform t.engine.seed t.sourceInts)).releasePrev

/-- DECODE_DELTA: the shared checks, then `DecodeDeltaCmd` (45_delta R226, R227). -/
def execDecodeDelta (s : State) : Host.Outcome State Fault Refusal :=
  s.guarded s.engine.decodeSource s.engine.decodeDest fun t =>
    (t.storeDecoded
      (t.sourceDecoded.map fun r => (deltaAccumulate t.engine.seed r.1, r.2))).releasePrev

end Sys2Proof.Machine
end

