-- ==== Sys2Proof/Machine/Encode.lean ====
section
/-! DEFINITION. BaseEncoder: the command ENCODE (43_encode). -/

namespace Sys2Proof.Machine

/-- ENCODE: the shared checks, then `EncodeCmd` (43_encode R180, R181). -/
def execEncode (s : State) : Host.Outcome State Fault Refusal :=
  s.guarded s.engine.encodeSource s.engine.encodeDest fun t => t.storeEncoded t.sourceInts

end Sys2Proof.Machine
end

