-- ==== Sys2Proof/Machine/Dispatch.lean ====
section
/-! DEFINITION. The completion of each command: one arm per constructor of Instr. -/

namespace Sys2Proof.Machine

/-- `Execute(op)` and the completion step for a legal command (40_command_cycle R124, R125). -/
def exec (i : Instr) (s : State) : Host.Outcome State Fault Refusal :=
  match i with
  | .capacity => Sys2Proof.Machine.execCapacity s
  | .encode => Sys2Proof.Machine.execEncode s
  | .decode => Sys2Proof.Machine.execDecode s
  | .encodeDelta => Sys2Proof.Machine.execEncodeDelta s
  | .decodeDelta => Sys2Proof.Machine.execDecodeDelta s

end Sys2Proof.Machine
end

