-- ==== Sys2Proof/Machine/HostPort.lean ====
section
/-! DEFINITION. What the host can do to the machine (30_encoding R101, R102; 70_reset_and_hazards R295):
register reads and writes through the windows, reads and writes of `M`, RESET and POLL, with the hazards
the model refuses (70_reset_and_hazards R286, 60_exceptions R265). -/

namespace Sys2Proof.Machine

/-- Every engine of the platform, the focused one first (60_exceptions R265). -/
def State.engines (s : State) : List Engine := s.engine :: s.peers

/-- The engine of a number. -/
def State.engineAt (s : State) (k : Nat) : Option Engine := s.engines[k]?

/-- The state with the engine of a number replaced. -/
def State.setEngineAt (s : State) (k : Nat) (e : Engine) : State :=
  match k with
  | 0 => { s with engine := e }
  | k + 1 => { s with peers := s.peers.set k e }

/-- The state seen with another engine in focus: engine `k` and the focused one change places. -/
def State.swap (s : State) (k : Nat) : State :=
  match k with
  | 0 => s
  | k + 1 =>
    match s.peers[k]? with
    | none => s
    | some e => { s with engine := e, peers := s.peers.set k s.engine }

/-- `BASE` (00_scope R7): a word address (10_state R22; log entry 21). -/
def Engine.base (e : Engine) : Nat := 4 * e.baseWord

/-- The register word a host address names in an engine's window `[BASE, BASE+64)`; no other address is an
access to this engine (10_state R22, R34). -/
def Engine.portReg (e : Engine) (addr : Nat) : Option Reg :=
  if e.base ≤ addr then Reg.ofOffset (addr - e.base) else none

/-- The first of the engines, numbered from `k`, whose window has the address, and the word there. -/
def findPort (addr : Nat) : Nat → List Engine → Option (Nat × Reg)
  | _, [] => none
  | k, e :: es =>
    match e.portReg addr with
    | some r => some (k, r)
    | none => findPort addr (k + 1) es

/-- The engine and the word a host address names. -/
def State.portTarget (s : State) (addr : Nat) : Option (Nat × Reg) := findPort addr 0 s.engines

/-- The regions of every command in flight (70_reset_and_hazards R286). -/
def State.inFlight (s : State) : List (Region × Region) := s.engines.filterMap Engine.inFlight

/-- Whether two commands' regions overlap with at least one of the two writing: the first of a pair is read,
the second is written (60_exceptions R265). -/
def regionsConflict (x y : Region × Region) : Bool :=
  x.2.overlaps y.1 || x.2.overlaps y.2 || x.1.overlaps y.2

/-- Whether engine `k`, when it is `e`, has regions in flight that conflict with another engine's
(60_exceptions R265). -/
def State.engineConflict (s : State) (k : Nat) (e : Engine) : Bool :=
  match e.inFlight with
  | none => false
  | some x => ((s.engines.eraseIdx k).filterMap Engine.inFlight).any (regionsConflict x)

/-- Engine `k`, which is `e` and idle, accepts the word `w` (40_command_cycle R120, R121), unless that would
put conflicting regions in flight (60_exceptions R265; log entry 12). -/
def State.acceptAt (s : State) (k : Nat) (e : Engine) (w : Word) : Host.Outcome State Fault Refusal :=
  if s.engineConflict k (e.accept w) = true then .refused .engineConflict
  else .next (s.setEngineAt k (e.accept w))

/-- A host write of `w` to word `r` of engine `k`: ignored while BUSY; CMD is an accept; every other word is
stored or ignored by its access (10_state R22, R23; 40_command_cycle R120). -/
def State.writePort (s : State) (k : Nat) (r : Reg) (w : Word) : Host.Outcome State Fault Refusal :=
  match s.engineAt k with
  | none => .next s
  | some e =>
    if e.busy = true then .next s
    else if r = .cmd then s.acceptAt k e w
    else .next (s.setEngineAt k (e.storeReg r w))

/-- `WR` at a word address: an address outside every window is no access to an engine and changes none (10_state R34; log
entry 9). -/
def State.hostWrite (s : State) (addr : Nat) (w : Word) : Host.Outcome State Fault Refusal :=
  match s.portTarget addr with
  | none => .next s
  | some (k, r) => s.writePort k r w

/-- The state with one more reading in the host's record (70_reset_and_hazards R295). -/
def State.record (s : State) (r : Reading) : State := { s with reads := s.reads ++ [r] }

/-- `RD` at a word address: the word, with no side effect on any engine (10_state R22). An address outside every window is
answered by something that is no engine: a free word (log entry 9). -/
def State.hostRead (s : State) (addr : Nat) : State :=
  match s.portTarget addr with
  | none => State.record { s with draws := s.draws + 1 } (.word (Config.freeWord s.draws))
  | some (k, r) =>
    match s.engineAt k with
    | none => s
    | some e => s.record (.word (e.readReg r))

/-- Whether a host write to a region of `M` breaks 70_reset_and_hazards R286. -/
def State.writeHazard (s : State) (r : Region) : Bool :=
  s.inFlight.any fun x => r.overlaps x.1 || r.overlaps x.2

/-- Whether a host read of a region of `M` breaks 70_reset_and_hazards R286: it may read a source. -/
def State.readHazard (s : State) (r : Region) : Bool := s.inFlight.any fun x => r.overlaps x.2

/-- `MW` (70_reset_and_hazards R295; log entries 10, 13). -/
def State.hostMemWrite (s : State) (addr : Nat) (bytes : List Byte) :
    Host.Outcome State Fault Refusal :=
  if Region.ok ⟨addr, bytes.length⟩ s.platform.memSize = false then .fault .hostAddressOutsideMemory
  else if s.platform.touchesDevice ⟨addr, bytes.length⟩ = true then .refused .deviceMemory
  else if s.writeHazard ⟨addr, bytes.length⟩ = true then .refused .hostHazard
  else .next { s with mem := s.mem.writeBytes addr bytes }

/-- `MR` (70_reset_and_hazards R295; log entries 10, 13). -/
def State.hostMemRead (s : State) (addr n : Nat) : Host.Outcome State Fault Refusal :=
  if Region.ok ⟨addr, n⟩ s.platform.memSize = false then .fault .hostAddressOutsideMemory
  else if s.platform.touchesDevice ⟨addr, n⟩ = true then .refused .deviceMemory
  else if s.readHazard ⟨addr, n⟩ = true then .refused .hostHazard
  else .next (s.record (.bytes (s.mem.readBytes addr n)))

/-- An engine after its reset: every register 0, PENDING `none`; PREV and the cursors become unspecified and
take free values (70_reset_and_hazards R280). -/
def Engine.afterReset (e : Engine) (draw : Nat) : Engine :=
  { Engine.powerOn with
    baseWord := e.baseWord, prev := Config.freeWord draw, cursors := Config.freeCursors draw }

/-- The part of a region that lies in `[0, memSize)`, as a length from its base. -/
def Region.lengthIn (r : Region) (memSize : Nat) : Nat := min (r.base + r.len) memSize - r.base

/-- `M` after the reset of an engine: each destination byte of an abandoned command takes a free value, and
every other byte stays (70_reset_and_hazards R281). DEDUCED, log entry 7: with COUNT = 0 no byte changes.
DESIGN CHOICE, log entry 22: a command that would have been refused at its completion (a region in device
memory, 20_memory R68; overlapping regions, R71) is abandoned like any other and does not stop the run. -/
def State.memAfterReset (s : State) (e : Engine) : Memory :=
  match e.inFlight with
  | none => s.mem
  | some x => s.mem.fill (Config.freeByte s.draws) x.2.base (x.2.lengthIn s.platform.memSize)

/-- `RESET` of engine `k` (70_reset_and_hazards R280, R281; log entry 11). -/
def State.hostReset (s : State) (k : Nat) : Host.Outcome State Fault Refusal :=
  match s.engineAt k with
  | none => .fault .noSuchEngine
  | some e =>
    .next (State.setEngineAt { s with mem := s.memAfterReset e, draws := s.draws + 1 } k
      (e.afterReset s.draws))

/-- One turn of `POLL`: `RD STATUS`, and the same action again while BUSY reads 1 (30_encoding R102; log
entry 16). -/
def State.hostPoll (s : State) (k : Nat) : Host.Outcome State Fault Refusal :=
  match s.engineAt k with
  | none => .fault .noSuchEngine
  | some e =>
    .next (State.record
      { s with script := if e.busy = true then .poll k :: s.script else s.script }
      (.word (e.readReg .status)))

/-- One host action, already taken off the script. -/
def State.hostAct (s : State) (a : HostAction) : Host.Outcome State Fault Refusal :=
  match a with
  | .wr word w => s.hostWrite (4 * word) w
  | .rd word => .next (s.hostRead (4 * word))
  | .mw addr bytes => s.hostMemWrite addr bytes
  | .mr addr n => s.hostMemRead addr n
  | .reset k => s.hostReset k
  | .poll k => s.hostPoll k

/-- The host's step: its next action. -/
def State.hostTurn (s : State) : Host.Outcome State Fault Refusal :=
  match s.script with
  | [] => .next s
  | a :: rest => State.hostAct { s with script := rest } a

/-- The number of a word in the window: its offset in words (10_state R21). -/
def Reg.index (r : Reg) : Nat := r.offset / 4

/-- `WR <reg>, <imm32>` on the engine with `BASE = 4 * baseWord` (30_encoding R101). -/
def writeRegAction (baseWord : Nat) (r : Reg) (w : Word) : HostAction := .wr (baseWord + r.index) w

/-- `RD <reg>` on the engine with `BASE = 4 * baseWord` (30_encoding R101). -/
def readRegAction (baseWord : Nat) (r : Reg) : HostAction := .rd (baseWord + r.index)

/-- `WR64 <R>, <imm64>` (30_encoding R102). -/
def write64Actions (baseWord : Nat) (r : Reg64) (v : DWord) : List HostAction :=
  [writeRegAction baseWord r.lo (loWord v), writeRegAction baseWord r.hi (hiWord v)]

/-- `RD64 <R>` (30_encoding R102). -/
def read64Actions (baseWord : Nat) (r : Reg64) : List HostAction :=
  [readRegAction baseWord r.lo, readRegAction baseWord r.hi]

/-- `MW32 <addr>, v0, v1, ...` (30_encoding R102). -/
def writeIntsAction (addr : Nat) (vals : List Word) : HostAction := .mw addr (intBytes vals)

/-- `START <mnemonic>` (30_encoding R102). -/
def startAction (baseWord : Nat) (i : Instr) : HostAction := writeRegAction baseWord .cmd (encode i)

end Sys2Proof.Machine
end

