-- ==== Sys2Proof/Machine/Schedule.lean ====
section
/-! DEFINITION. Which agent moves next (40_command_cycle R122; 70_reset_and_hazards R292, R293). -/

namespace Sys2Proof.Machine

/-- Whether an agent has a step: the host while its script has an action, an engine exactly when its PENDING
is not `none` (40_command_cycle R122). -/
def State.enabled (s : State) (a : Agent) : Bool :=
  match a with
  | .host => !s.script.isEmpty
  | .engine k =>
    match s.engineAt k with
    | none => false
    | some e => e.pending.isSome

/-- The agent that moves when the schedule names no agent that can: a pending completion before the host, so
that a completion that stays enabled is taken (70_reset_and_hazards R293; log entry 1). -/
def State.defaultAgent (s : State) : Option Agent :=
  match s.engines.findIdx? (fun e => e.pending.isSome) with
  | some k => some (.engine k)
  | none => if s.script.isEmpty = true then none else some .host

/-- The next agent and the rest of the schedule: the first agent of the schedule that has a step
(70_reset_and_hazards R292). `none`: nothing is left to do (R294). -/
def State.nextAgent (s : State) : Option (Agent × List Agent) :=
  match s.schedule.dropWhile (fun a => !s.enabled a) with
  | a :: rest => some (a, rest)
  | [] => s.defaultAgent.map fun a => (a, [])

end Sys2Proof.Machine
end

