-- ==== Sys2Proof/Machine/Step.lean ====
section
/-! DEFINITION. One step of the machine: one agent's step (00_scope R8, 40_command_cycle R122). -/

namespace Sys2Proof.Machine

/-- `Complete()` of the focused engine (40_command_cycle R124). -/
def completion (s : State) : Host.Outcome State Fault Refusal :=
  match s.engine.pending with
  | none => .next s
  | some .illegal => .next s.completeIllegal
  | some (.command i) => exec i s

/-- The step of engine `k`: its completion, with that engine in focus (60_exceptions R265). -/
def engineTurn (k : Nat) (s : State) : Host.Outcome State Fault Refusal :=
  match completion (s.swap k) with
  | .next t => .next (t.swap k)
  | .fault f => .fault f
  | .refused r => .refused r

/-- One step. With nothing left to do the machine stays as it is (70_reset_and_hazards R294). -/
def step (s : State) : Host.Outcome State Fault Refusal :=
  match s.nextAgent with
  | none => .next s
  | some (.host, rest) => State.hostTurn { s with schedule := rest }
  | some (.engine k, rest) => engineTurn k { s with schedule := rest }

/-- The state in which the focused engine has just accepted the command word `w` and moves next, so that the
next step runs it: the accept of 40_command_cycle R121 (log entry 8). -/
def State.withFetchWord (s : State) (nbits w : Nat) : State :=
  { s with
    engine := s.engine.accept (tableWord nbits w)
    schedule := .engine 0 :: s.schedule }

end Sys2Proof.Machine
end

