-- ==== Sys2Proof/Safety.lean ====
section
/-! DEFINITION. What the spec promises of every reachable state, and what counts as a safe run. -/

namespace Sys2Proof.Machine

/-- The legal STATUS words: idle, in flight, or completed with a code 0..4 (10_state R26). -/
abbrev Engine.StatusLegal (e : Engine) : Prop :=
  e.status ∈ [0x00#32, 0x01#32, 0x02#32, 0x12#32, 0x22#32, 0x32#32, 0x42#32]

/-- The invariant of one engine: STATUS is legal (10_state R26); PENDING is `none` exactly when BUSY = 0
(R38); RESULT is below 2^35, and 0 unless a command completed with success (R33, 46_capacity R241). -/
abbrev Engine.Inv (e : Engine) : Prop :=
  e.StatusLegal ∧ (e.pending = none ↔ e.busy = false) ∧ e.result.toNat < 2 ^ 35 ∧
    (e.status ≠ 0x02#32 → e.result = 0#64)

/-- The invariant of the machine: MEM_SIZE is in its range, `M` is in its canonical form and lists only
addresses below MEM_SIZE (20_memory R60), and every engine meets its own. -/
abbrev State.Inv (s : State) : Prop :=
  s.platform.WellFormed ∧ s.mem.wf ∧ s.mem.below s.platform.memSize ∧ ∀ e ∈ s.engines, e.Inv

/-- No two commands in flight have conflicting regions (60_exceptions R265). -/
abbrev State.NoConflict (s : State) : Prop :=
  s.engines.Pairwise fun e d =>
    ∀ x ∈ e.inFlight, ∀ y ∈ d.inFlight, regionsConflict x y = false

/-- The checks of 40_command_cycle R125 that let a memory command reach step 6: `COUNT > 0`, both regions in
memory, no shared address, and no device memory (20_memory R68). -/
abbrev State.Admits (s : State) (src dst : Region) : Prop :=
  s.engine.count ≠ 0#32 ∧ src.ok s.platform.memSize = true ∧ dst.ok s.platform.memSize = true ∧
    src.overlaps dst = false ∧ s.platform.touchesDevice src = false ∧
    s.platform.touchesDevice dst = false

/-- The words of the window a host write can change (10_state R21, column Access: RW). -/
def Reg.writable : Reg → Bool
  | .count => true
  | .seed => true
  | .srcAddrLo => true
  | .srcAddrHi => true
  | .srcLenLo => true
  | .srcLenHi => true
  | .dstAddrLo => true
  | .dstAddrHi => true
  | .dstLenLo => true
  | .dstLenHi => true
  | .cmd => false
  | .status => false
  | .resultLo => false
  | .resultHi => false
  | .reserved38 => false
  | .reserved3C => false

/-- BASE and the operand registers COUNT, SEED, SRC_ADDR, SRC_LEN, DST_ADDR and DST_LEN are the same. -/
abbrev Engine.SameOperands (e d : Engine) : Prop :=
  d.baseWord = e.baseWord ∧ d.count = e.count ∧ d.seed = e.seed ∧ d.srcAddr = e.srcAddr ∧
    d.srcLen = e.srcLen ∧ d.dstAddr = e.dstAddr ∧ d.dstLen = e.dstLen

/-- The other engines, the platform, the host's script, the schedule and the host's record are the same. -/
abbrev State.SameSurroundings (s t : State) : Prop :=
  t.peers = s.peers ∧ t.platform = s.platform ∧ t.script = s.script ∧ t.schedule = s.schedule ∧
    t.reads = s.reads

/-- Every byte outside a region reads the same. -/
abbrev Memory.SameOutside (m m' : Memory) (r : Region) : Prop :=
  ∀ a, r.contains a = false → m'.read a = m.read a

/-- `RegionOK(a, len)` in the words of 20_memory R63. -/
abbrev Region.InMemory (r : Region) (memSize : Nat) : Prop := r.len = 0 ∨ r.base + r.len ≤ memSize

/-- The host moves next and takes the action `a`; `u` is the state without that action and that turn. -/
abbrev State.HostMoves (s : State) (a : HostAction) (u : State) : Prop :=
  ∃ script schedule, s.nextAgent = some (.host, schedule) ∧ s.script = a :: script ∧
    u = { s with script := script, schedule := schedule }

/-- Engine `k`, which is `e`, moves next; `u` is the state without that turn. -/
abbrev State.EngineMoves (s : State) (k : Nat) (e : Engine) (u : State) : Prop :=
  ∃ schedule, s.nextAgent = some (.engine k, schedule) ∧ s.engineAt k = some e ∧
    u = { s with schedule := schedule }

end Sys2Proof.Machine
end

