-- ==== Sys2Proof/Certificates/Slice0/Obligations.lean ====
section
/-! DEFINITION. What the spec's rules say of this machine, stated for the provers. Each docstring names the
rule; a clause that rests on a choice of the model says so and names the log entry. -/

open Sys2Proof Sys2Proof.Machine

/-! ### Command words -/

/-- The words of 30_encoding R90, written out, decode to their commands; the illegal words of 95_test_vectors
V8 rows 4 to 7 are refused by name. -/
def Obligations.CommandWordsDecode : Prop :=
  decode 0x00000001#32 = .ok .capacity ∧ decode 0x00000002#32 = .ok .encode ∧
  decode 0x00000003#32 = .ok .decode ∧ decode 0x00000004#32 = .ok .encodeDelta ∧
  decode 0x00000005#32 = .ok .decodeDelta ∧ decode 0x00000000#32 = .error .undefinedOp ∧
  decode 0x00000006#32 = .error .undefinedOp ∧ decode 0x00000012#32 = .error .reservedBitsSet ∧
  decode 0x80000003#32 = .error .reservedBitsSet

/-- 30_encoding R91: classification is an exact match of the whole 32-bit word. -/
def Obligations.ClassifyMatchesWholeWord : Prop :=
  ∀ w : Word, classify w =
    if w = 0x00000001#32 then .command .capacity
    else if w = 0x00000002#32 then .command .encode
    else if w = 0x00000003#32 then .command .decode
    else if w = 0x00000004#32 then .command .encodeDelta
    else if w = 0x00000005#32 then .command .decodeDelta
    else .illegal

/-- 30_encoding R90, R91: decoding an encoded command gives it back, and each command has one word. -/
def Obligations.DecodeEncodeAgree : Prop :=
  (∀ i : Instr, decode (encode i) = .ok i) ∧ (∀ (w : Word) (i : Instr), decode w = .ok i → w = encode i)

/-! ### The register window -/

/-- 10_state R21, R22, R34: an address is an access to an engine exactly when it is the address of one of its
sixteen words. -/
def Obligations.WindowHoldsSixteenWords : Prop :=
  ∀ (e : Engine) (addr : Nat) (r : Reg), e.portReg addr = some r ↔ addr = e.base + r.offset

/-- 10_state R23, R22: a host write while BUSY leaves no trace; while idle it sets an RW word whole and
changes no other word and no hidden state; RO and reserved words ignore it. The accept of a CMD write is
`AcceptEffects`; a write that no window holds is `AccessOutsideWindows`. -/
def Obligations.HostRegisterWrite : Prop :=
  ∀ (s u : State) (word k : Nat) (w : Word) (r : Reg) (e : Engine),
    s.HostMoves (.wr word w) u → s.portTarget (4 * word) = some (k, r) → s.engineAt k = some e →
    (e.busy = true → step s = .next u) ∧
    (e.busy = false → r.writable = true →
      ∃ d : Engine, step s = .next (u.setEngineAt k d) ∧ d.readReg r = w ∧
        (∀ q : Reg, q ≠ r → d.readReg q = e.readReg q) ∧ d.baseWord = e.baseWord ∧
        d.pending = e.pending ∧ d.prev = e.prev ∧ d.cursors = e.cursors) ∧
    (e.busy = false → r.writable = false → r ≠ .cmd → step s = .next u)

/-- 40_command_cycle R121: what accepting a word changes, and that it changes nothing else. The hypothesis on
conflicts excludes only what 60_exceptions R265 refuses (`ConflictingAcceptRefused`). -/
def Obligations.AcceptEffects : Prop :=
  ∀ (s u : State) (word k : Nat) (w : Word) (e : Engine),
    s.HostMoves (.wr word w) u → s.portTarget (4 * word) = some (k, .cmd) → s.engineAt k = some e →
    e.busy = false → s.engineConflict k (e.accept w) = false →
    step s = .next (u.setEngineAt k
      { e with pending := some (classify w), status := 0x00000001#32, result := 0#64 })

/-- 10_state R22, R24, R34: a host read gives the word and changes no engine and no memory; CMD and the reserved
words read 0. A read that no window holds is `AccessOutsideWindows`. -/
def Obligations.HostRegisterRead : Prop :=
  (∀ (s u : State) (word k : Nat) (r : Reg) (e : Engine),
    s.HostMoves (.rd word) u → s.portTarget (4 * word) = some (k, r) → s.engineAt k = some e →
    step s = .next { u with reads := u.reads ++ [.word (e.readReg r)] }) ∧
  (∀ e : Engine, e.readReg .cmd = 0#32 ∧ e.readReg .reserved38 = 0#32 ∧ e.readReg .reserved3C = 0#32)

/-- 00_scope R12, 10_state R21, 30_encoding R102: a 64-bit register is {HI, LO}, and the two writes of WR64 to an
RW one, in order, set it and change no other 64-bit register. -/
def Obligations.SixtyFourBitRegisters : Prop :=
  (∀ (e : Engine) (r : Reg64), e.read64 r = (e.readReg r.hi ++ e.readReg r.lo : BitVec (32 + 32))) ∧
  (∀ (e : Engine) (r : Reg64) (v : DWord), r ≠ .result →
    ((e.storeReg r.lo (v.extractLsb' 0 32)).storeReg r.hi (v.extractLsb' 32 32)).read64 r = v ∧
    ∀ q : Reg64, q ≠ r →
      ((e.storeReg r.lo (v.extractLsb' 0 32)).storeReg r.hi (v.extractLsb' 32 32)).read64 q = e.read64 q)

/-! ### The command cycle -/

/-- 46_capacity R240: CAPACITY, the word 1, completes in every state; RESULT is `ceil4(COUNT) + 4*COUNT`, exactly,
STATUS is success, and nothing else changes. -/
def Obligations.CapacityCompletes : Prop :=
  encode .capacity = 0x00000001#32 ∧ ∀ s : State,
    ∃ v : DWord, v.toNat = (s.engine.count.toNat + 3) / 4 + 4 * s.engine.count.toNat ∧
      exec .capacity s =
        .next { s with engine := { s.engine with result := v, status := 0x02#32, pending := none } }

/-- 40_command_cycle R123: each memory command with COUNT = 0 completes with success and RESULT 0 whatever the
other operands, and changes nothing else. -/
def Obligations.EmptySequenceCompletes : Prop :=
  ∀ (i : Instr) (s : State), i ≠ .capacity → s.engine.count = 0#32 →
    exec i s = .next { s with engine := { s.engine with result := 0#64, status := 0x02#32, pending := none } }

/-- 60_exceptions R254: a word is illegal when its OP is 0x0 or 0x6..0xF or any of its bits 31:4 is set; an accepted
illegal word completes with ILLEGAL_CMD, and writes nothing but STATUS and RESULT (and PENDING, which the
completion clears). -/
def Obligations.IllegalCommandCompletes : Prop :=
  (∀ w : Word, classify w = .illegal ↔
    w.extractLsb' 0 4 = 0x0#4 ∨ 0x6 ≤ (w.extractLsb' 0 4).toNat ∨ w.extractLsb' 4 28 ≠ 0#28) ∧
  (∀ (s u : State) (k : Nat) (e : Engine), s.EngineMoves k e u → e.pending = some .illegal →
    step s = .next (u.setEngineAt k { e with status := 0x42#32, result := 0#64, pending := none }))

/-- 60_exceptions R253, 20_memory R63: with COUNT > 0, a memory command one of whose regions reaches past
MEM_SIZE completes with ACCESS_FAULT, whatever else holds, and accesses no byte. -/
def Obligations.AccessFaultCompletes : Prop :=
  ∀ (i : Instr) (s : State) (src dst : Region), s.engine.regions i = some (src, dst) →
    s.engine.count ≠ 0#32 →
    ¬(src.InMemory s.platform.memSize ∧ dst.InMemory s.platform.memSize) →
    exec i s = .next { s with engine := { s.engine with status := 0x32#32, result := 0#64, pending := none } }

/-- 20_memory R71, 70_reset_and_hazards R287: a memory command is refused for overlap exactly when it has passed
the earlier checks and its source and destination share an address. -/
def Obligations.OverlapRefusedExactly : Prop :=
  ∀ (i : Instr) (s : State) (src dst : Region), s.engine.regions i = some (src, dst) →
    (exec i s = .refused .overlappingRegions ↔
      s.engine.count ≠ 0#32 ∧ src.InMemory s.platform.memSize ∧ dst.InMemory s.platform.memSize ∧
        ∃ a, src.contains a = true ∧ dst.contains a = true)

/-- 20_memory R68, 93_implementation_defined I22: a memory command that has passed the checks and has a region in
device memory is refused by name. That the refusal falls beside step 5 is the model's choice (log entry 13). -/
def Obligations.DeviceRegionRefused : Prop :=
  ∀ (i : Instr) (s : State) (src dst : Region), s.engine.regions i = some (src, dst) →
    (exec i s = .refused .deviceMemory ↔
      s.engine.count ≠ 0#32 ∧ src.InMemory s.platform.memSize ∧ dst.InMemory s.platform.memSize ∧
        (∀ a, src.contains a = true → dst.contains a = false) ∧
        ∃ d ∈ s.platform.devices, ∃ a, d.contains a = true ∧
          (src.contains a = true ∨ dst.contains a = true))

/-- 60_exceptions R251, R252, R253: a command that completes reports each code exactly when its rule says so, and
no legal command reports another code. -/
def Obligations.ErrorCodeExactly : Prop :=
  ∀ (i : Instr) (s t : State), exec i s = .next t →
    (t.engine.status = 0x12#32 ↔
      (i = .encode ∨ i = .encodeDelta) ∧ s.engine.count ≠ 0#32 ∧
        s.engine.encodeSource.InMemory s.platform.memSize ∧
        s.engine.encodeDest.InMemory s.platform.memSize ∧
        s.engine.dstLen.toNat < maxCompressedBytes s.engine.count.toNat) ∧
    (t.engine.status = 0x22#32 ↔
      (i = .decode ∨ i = .decodeDelta) ∧ s.engine.count ≠ 0#32 ∧
        s.engine.decodeSource.InMemory s.platform.memSize ∧
        s.engine.decodeDest.InMemory s.platform.memSize ∧
        decodeStream (s.mem.readBytes s.engine.srcAddr.toNat s.engine.srcLen.toNat)
          s.engine.count.toNat = none) ∧
    (t.engine.status = 0x32#32 ↔
      ∃ src dst, s.engine.regions i = some (src, dst) ∧ s.engine.count ≠ 0#32 ∧
        ¬(src.InMemory s.platform.memSize ∧ dst.InMemory s.platform.memSize)) ∧
    t.engine.status ∈ [0x02#32, 0x12#32, 0x22#32, 0x32#32]

/-- 60_exceptions R256, R257: a command that ends with an error leaves RESULT 0, DONE 1, BUSY 0 and PENDING `none`,
and writes no byte of `M` and no operand register. -/
def Obligations.ErrorWritesNoByte : Prop :=
  ∀ (s t : State), s.engine.pending ≠ none → completion s = .next t → t.engine.err ≠ 0#4 →
    t.mem = s.mem ∧ t.engine.result = 0#64 ∧ t.engine.done = true ∧ t.engine.busy = false ∧
      t.engine.pending = none ∧ s.engine.SameOperands t.engine ∧ s.SameSurroundings t

/-! ### Encoding commands -/

/-- 43_encode R181, R182: past the shared checks ENCODE completes. Below the capacity bound it is
BUFFER_TOO_SMALL and writes nothing; otherwise the encoded bytes stand from DST_ADDR on, RESULT is their
number, every other byte and register is unchanged. The cursors are left free (log entry 6). -/
def Obligations.EncodeCompletes : Prop :=
  ∀ s : State, s.Admits s.engine.encodeSource s.engine.encodeDest →
    let out := encodeStream (s.mem.readInts s.engine.srcAddr.toNat s.engine.count.toNat)
    let cap := (s.engine.count.toNat + 3) / 4 + 4 * s.engine.count.toNat
    ∃ t, exec .encode s = .next t ∧ t.engine.pending = none ∧
      s.engine.SameOperands t.engine ∧ t.engine.prev = s.engine.prev ∧ s.SameSurroundings t ∧
      (s.engine.dstLen.toNat < cap →
        t.engine.status = 0x12#32 ∧ t.engine.result = 0#64 ∧ t.mem = s.mem) ∧
      (cap ≤ s.engine.dstLen.toNat →
        t.engine.status = 0x02#32 ∧ t.engine.result.toNat = out.length ∧
        (∀ j, j < out.length → t.mem.read (s.engine.dstAddr.toNat + j) = out.getD j 0#8) ∧
        s.mem.SameOutside t.mem ⟨s.engine.dstAddr.toNat, out.length⟩)

/-- 45_delta R221: ENCODE_DELTA encodes the wrapping differences from the previous original value, the first
from SEED; the checks and the effects are those of ENCODE. PREV and the cursors are left free (log entries
5, 6). -/
def Obligations.EncodeDeltaCompletes : Prop :=
  ∀ s : State, s.Admits s.engine.encodeSource s.engine.encodeDest →
    let vals := s.mem.readInts s.engine.srcAddr.toNat s.engine.count.toNat
    let cap := (s.engine.count.toNat + 3) / 4 + 4 * s.engine.count.toNat
    ∃ deltas : List Word, deltas.length = s.engine.count.toNat ∧
      (∀ i, i < deltas.length → deltas.getD i 0#32 =
        vals.getD i 0#32 - (if i = 0 then s.engine.seed else vals.getD (i - 1) 0#32)) ∧
      ∃ t, exec .encodeDelta s = .next t ∧ t.engine.pending = none ∧
        s.engine.SameOperands t.engine ∧ s.SameSurroundings t ∧
        (s.engine.dstLen.toNat < cap →
          t.engine.status = 0x12#32 ∧ t.engine.result = 0#64 ∧ t.mem = s.mem) ∧
        (cap ≤ s.engine.dstLen.toNat →
          t.engine.status = 0x02#32 ∧ t.engine.result.toNat = (encodeStream deltas).length ∧
          (∀ j, j < (encodeStream deltas).length →
            t.mem.read (s.engine.dstAddr.toNat + j) = (encodeStream deltas).getD j 0#8) ∧
          s.mem.SameOutside t.mem ⟨s.engine.dstAddr.toNat, (encodeStream deltas).length⟩)

/-- 30_encoding R94 to R99, 43_encode R183: the buffer of a sequence, byte by byte. Slot `k` of control byte `g`
is the length code of element `4g+k`, or 0 in a padding slot; data value `i` starts `ceil4(n)` plus the widths
of the values before it, low byte first. -/
def Obligations.EncodedBufferLayout : Prop :=
  ∀ vals : List Word,
    (∀ g k, g < (vals.length + 3) / 4 → k < 4 →
      ((encodeStream vals).getD g 0#8).extractLsb' (2 * k) 2 =
        if 4 * g + k < vals.length then lengthCode (vals.getD (4 * g + k) 0#32) else 0#2) ∧
    (∀ i j, i < vals.length → j ≤ (lengthCode (vals.getD i 0#32)).toNat →
      (encodeStream vals).getD
          ((vals.length + 3) / 4 + ((vals.take i).map fun v => (lengthCode v).toNat + 1).sum + j) 0#8 =
        (vals.getD i 0#32).extractLsb' (8 * j) 8)

/-- 43_encode R184: the size of an encoded sequence. -/
def Obligations.EncodedLength : Prop :=
  ∀ vals : List Word, (encodeStream vals).length =
    (vals.length + 3) / 4 + (vals.map fun v => (lengthCode v).toNat + 1).sum

/-- 43_encode R185, 46_capacity R242: the size bounds, and exactly when each is reached. -/
def Obligations.EncodedSizeBounds : Prop :=
  ∀ vals : List Word,
    ceil4 vals.length + vals.length ≤ (encodeStream vals).length ∧
    (encodeStream vals).length ≤ maxCompressedBytes vals.length ∧
    ((encodeStream vals).length = ceil4 vals.length + vals.length ↔ ∀ v ∈ vals, v.toNat < 0x100) ∧
    ((encodeStream vals).length = maxCompressedBytes vals.length ↔ ∀ v ∈ vals, 0x1000000 ≤ v.toNat)

/-! ### Decoding commands -/

/-- 44_decode R202: past the shared checks DECODE completes. If the stream fails it is FORMAT_ERROR and writes
nothing; otherwise the values stand as an integer array at DST_ADDR, RESULT is the bytes consumed, every
other byte and register is unchanged. The cursors are left free (log entry 6). -/
def Obligations.DecodeCompletes : Prop :=
  ∀ s : State, s.Admits s.engine.decodeSource s.engine.decodeDest →
    let decoded := decodeStream (s.mem.readBytes s.engine.srcAddr.toNat s.engine.srcLen.toNat)
      s.engine.count.toNat
    ∃ t, exec .decode s = .next t ∧ t.engine.pending = none ∧
      s.engine.SameOperands t.engine ∧ t.engine.prev = s.engine.prev ∧ s.SameSurroundings t ∧
      (decoded = none → t.engine.status = 0x22#32 ∧ t.engine.result = 0#64 ∧ t.mem = s.mem) ∧
      (∀ vals consumed, decoded = some (vals, consumed) →
        t.engine.status = 0x02#32 ∧ t.engine.result.toNat = consumed ∧
        t.mem.readInts s.engine.dstAddr.toNat s.engine.count.toNat = vals ∧
        s.mem.SameOutside t.mem ⟨s.engine.dstAddr.toNat, 4 * s.engine.count.toNat⟩)

/-- 45_delta R227: DECODE_DELTA emits each delta added to the value before it, the first to SEED, modulo 2^32; the
checks and the effects are those of DECODE. PREV and the cursors are left free (log entries 5, 6). -/
def Obligations.DecodeDeltaCompletes : Prop :=
  ∀ s : State, s.Admits s.engine.decodeSource s.engine.decodeDest →
    let decoded := decodeStream (s.mem.readBytes s.engine.srcAddr.toNat s.engine.srcLen.toNat)
      s.engine.count.toNat
    ∃ t, exec .decodeDelta s = .next t ∧ t.engine.pending = none ∧
      s.engine.SameOperands t.engine ∧ s.SameSurroundings t ∧
      (decoded = none → t.engine.status = 0x22#32 ∧ t.engine.result = 0#64 ∧ t.mem = s.mem) ∧
      (∀ deltas consumed, decoded = some (deltas, consumed) →
        ∃ vals : List Word, vals.length = s.engine.count.toNat ∧
          (∀ i, i < vals.length → vals.getD i 0#32 =
            (if i = 0 then s.engine.seed else vals.getD (i - 1) 0#32) + deltas.getD i 0#32) ∧
          t.engine.status = 0x02#32 ∧ t.engine.result.toNat = consumed ∧
          t.mem.readInts s.engine.dstAddr.toNat s.engine.count.toNat = vals ∧
          s.mem.SameOutside t.mem ⟨s.engine.dstAddr.toNat, 4 * s.engine.count.toNat⟩)

/-- 44_decode R203, R201: a decode fails exactly when the control region or the declared data is cut short, and
one that succeeds consumes the control region and the declared widths. -/
def Obligations.FormatErrorExactly : Prop :=
  ∀ (bytes : List Byte) (n : Nat), 0 < n →
    let need := ceil4 n +
      ((List.range n).map fun i => (codeOf (bytes.take (ceil4 n)) i).toNat + 1).sum
    (decodeStream bytes n = none ↔ bytes.length < ceil4 n ∨ bytes.length < need) ∧
    (∀ vals consumed, decodeStream bytes n = some (vals, consumed) →
      vals.length = n ∧ consumed = need)

/-- 44_decode R204: decoding an encoded sequence gives it back and consumes its length, whatever follows it; with
its last byte gone it fails. -/
def Obligations.DecodeRecoversEncoded : Prop :=
  ∀ vals : List Word,
    (∀ extra : List Byte, decodeStream (encodeStream vals ++ extra) vals.length =
      some (vals, (encodeStream vals).length)) ∧
    (vals ≠ [] → decodeStream (encodeStream vals).dropLast vals.length = none)

/-- 30_encoding R100: the decoder accepts any codes wide enough for their values. -/
def Obligations.WiderCodesDecode : Prop :=
  ∀ (items : List (Word × LengthCode)) (ctrl extra : List Byte),
    (∀ x ∈ items, x.1.toNat < 256 ^ (x.2.toNat + 1)) →
    ctrl.length = ceil4 items.length →
    (∀ i, i < items.length → codeOf ctrl i = (items.getD i (0#32, 0#2)).2) →
    decodeStream (ctrl ++ (items.flatMap fun x => writeValue x.1 x.2) ++ extra) items.length =
      some (items.map Prod.fst, ctrl.length + (items.flatMap fun x => writeValue x.1 x.2).length)

/-- 30_encoding R99, 41_control_coder R148: the padding slots of the final control byte do not change what a
decode gives. -/
def Obligations.PaddingSlotsIgnored : Prop :=
  ∀ (bytes : List Byte) (n : Nat) (b : Byte), n % 4 ≠ 0 → ceil4 n ≤ bytes.length →
    (∀ k, k < n % 4 → b.extractLsb' (2 * k) 2 =
      (bytes.getD (ceil4 n - 1) 0#8).extractLsb' (2 * k) 2) →
    decodeStream (bytes.set (ceil4 n - 1) b) n = decodeStream bytes n

/-- 60_exceptions R264, third outcome: a smaller count with as many control bytes decodes the first values. -/
def Obligations.SmallerCountDecodesPrefix : Prop :=
  ∀ (bytes : List Byte) (n m : Nat) (vals : List Word) (consumed : Nat), m ≤ n → ceil4 m = ceil4 n →
    decodeStream bytes n = some (vals, consumed) →
    ∃ q, q ≤ consumed ∧ decodeStream bytes m = some (vals.take m, q)

/-! ### Delta laws -/

/-- 45_delta R228: accumulating the differences gives the sequence back, for every seed and every sequence; and
ENCODE_DELTA then DECODE_DELTA with the same COUNT and SEED gives the array back and reads as many bytes as
were written. `u` is the state after the first command with the operands of the second written. -/
def Obligations.DeltaRoundTrip : Prop :=
  (∀ (vals : List Word) (seed : Word), deltaAccumulate seed (deltaTransform seed vals) = vals) ∧
  (∀ (s t u : State) (addr : DWord), s.Admits s.engine.encodeSource s.engine.encodeDest →
    maxCompressedBytes s.engine.count.toNat ≤ s.engine.dstLen.toNat → exec .encodeDelta s = .next t →
    u = { t with engine := { t.engine with
            srcAddr := s.engine.dstAddr, srcLen := t.engine.result, dstAddr := addr } } →
    u.Admits u.engine.decodeSource u.engine.decodeDest →
    ∃ v, exec .decodeDelta u = .next v ∧ v.engine.status = 0x02#32 ∧ v.engine.result = t.engine.result ∧
      v.mem.readInts addr.toNat s.engine.count.toNat =
        s.mem.readInts s.engine.srcAddr.toNat s.engine.count.toNat)

/-- 44_decode R204 for the commands: ENCODE, then DECODE of the bytes it wrote with the same COUNT, gives the
array back and reads as many bytes as were written. -/
def Obligations.EncodeThenDecode : Prop :=
  ∀ (s t u : State) (addr : DWord), s.Admits s.engine.encodeSource s.engine.encodeDest →
    maxCompressedBytes s.engine.count.toNat ≤ s.engine.dstLen.toNat → exec .encode s = .next t →
    u = { t with engine := { t.engine with
            srcAddr := s.engine.dstAddr, srcLen := t.engine.result, dstAddr := addr } } →
    u.Admits u.engine.decodeSource u.engine.decodeDest →
    ∃ v, exec .decode u = .next v ∧ v.engine.status = 0x02#32 ∧ v.engine.result = t.engine.result ∧
      v.mem.readInts addr.toNat s.engine.count.toNat =
        s.mem.readInts s.engine.srcAddr.toNat s.engine.count.toNat

/-- 60_exceptions R263: another seed offsets every value by the same wrapping difference, and changes neither the
status nor the RESULT of DECODE_DELTA. -/
def Obligations.SeedMismatchOffsetsValues : Prop :=
  (∀ (vals : List Word) (seed other : Word),
    deltaAccumulate other (deltaTransform seed vals) = vals.map fun v => v + (other - seed)) ∧
  (∀ (s t : State) (other : Word), exec .decodeDelta s = .next t →
    ∃ u, exec .decodeDelta { s with engine := { s.engine with seed := other } } = .next u ∧
      u.engine.status = t.engine.status ∧ u.engine.result = t.engine.result)

/-- 45_delta R226: on the same bytes and count DECODE_DELTA completes as DECODE does, with the same STATUS and
RESULT. -/
def Obligations.DecodeDeltaResultIsDecodes : Prop :=
  ∀ (s t : State), exec .decode s = .next t →
    ∃ u, exec .decodeDelta s = .next u ∧ u.engine.status = t.engine.status ∧
      u.engine.result = t.engine.result

/-- 45_delta R229: for a non-decreasing sequence that starts at or above the seed, the delta form is never longer
than the plain form. -/
def Obligations.DeltaNeverLongerIfNonDecreasing : Prop :=
  ∀ (vals : List Word) (seed : Word), (seed :: vals).Pairwise (fun a b => a.toNat ≤ b.toNat) →
    (encodeStream (deltaTransform seed vals)).length ≤ (encodeStream vals).length

/-! ### Frames -/

/-- 20_memory R69, 10_state R35: what ENCODE and ENCODE_DELTA leave unchanged whenever they complete: every operand
register, everything around the engine, PREV for ENCODE, and every byte outside the RESULT bytes from
DST_ADDR. -/
def Obligations.EncodeFrame : Prop :=
  ∀ (i : Instr) (s t : State), i = .encode ∨ i = .encodeDelta → exec i s = .next t →
    s.engine.SameOperands t.engine ∧ s.SameSurroundings t ∧
    (i = .encode → t.engine.prev = s.engine.prev) ∧
    s.mem.SameOutside t.mem ⟨s.engine.dstAddr.toNat, t.engine.result.toNat⟩

/-- 20_memory R69, 10_state R35: what DECODE and DECODE_DELTA leave unchanged whenever they complete: every operand
register, everything around the engine, PREV for DECODE, and every byte outside the 4*COUNT bytes from
DST_ADDR; with an error, every byte. -/
def Obligations.DecodeFrame : Prop :=
  ∀ (i : Instr) (s t : State), i = .decode ∨ i = .decodeDelta → exec i s = .next t →
    s.engine.SameOperands t.engine ∧ s.SameSurroundings t ∧
    (i = .decode → t.engine.prev = s.engine.prev) ∧
    s.mem.SameOutside t.mem ⟨s.engine.dstAddr.toNat, 4 * s.engine.count.toNat⟩ ∧
    (t.engine.err ≠ 0#4 → t.mem = s.mem)

/-- 40_command_cycle R127, 20_memory R70: the outcome of a memory command depends on `M` only through the bytes of
its source region. With two memories that agree there, both runs stop with the same reason, or both complete
with the same registers, and each byte is the same in both or untouched by both. -/
def Obligations.SourceBytesDecideOutcome : Prop :=
  ∀ (i : Instr) (s : State) (m : Memory) (src dst : Region), s.engine.regions i = some (src, dst) →
    (∀ a, src.contains a = true → m.read a = s.mem.read a) →
    (∀ t, exec i s = .next t →
      ∃ u, exec i { s with mem := m } = .next u ∧ u.engine = t.engine ∧
        ∀ a, u.mem.read a = t.mem.read a ∨
          (u.mem.read a = m.read a ∧ t.mem.read a = s.mem.read a)) ∧
    (∀ r, exec i s = .refused r → exec i { s with mem := m } = .refused r)

/-! ### Reset -/

/-- 70_reset_and_hazards R280, R281: RESET of an engine, from any state, leaves every register word 0 and PENDING
`none`, keeps BASE, and leaves `M` unchanged unless a memory command is abandoned, when only the destination
changes, whose bytes are free. Two clauses rest on the model's choices: that the other engines stay as they are
(RESET is per engine, log entry 3, DESIGN CHOICE), and that an abandoned memory command with COUNT = 0 changes no
byte, where R281 read literally frees its destination (log entry 7, DEDUCED). -/
def Obligations.ResetClearsEngine : Prop :=
  ∀ (s u : State) (k : Nat) (e : Engine), s.HostMoves (.reset k) u → s.engineAt k = some e →
    ∃ t d, step s = .next t ∧ t.engineAt k = some d ∧ (∀ r : Reg, d.readReg r = 0#32) ∧
      d.pending = none ∧ d.baseWord = e.baseWord ∧
      t.platform = s.platform ∧ t.script = u.script ∧ t.schedule = u.schedule ∧ t.reads = s.reads ∧
      ((∀ i, e.pending = some (.command i) → i = .capacity) → t.mem = s.mem) ∧
      (∀ i src dst, e.pending = some (.command i) → e.regions i = some (src, dst) →
        e.count ≠ 0#32 → s.mem.SameOutside t.mem dst) ∧
      (∀ i, e.pending = some (.command i) → e.count = 0#32 → t.mem = s.mem) ∧
      (∀ j, j ≠ k → t.engineAt j = s.engineAt j)

/-- 70_reset_and_hazards R282, 10_state R41: at power-on every register word reads 0 and nothing is in flight. -/
def Obligations.PowerOnRegisters : Prop :=
  (∀ r : Reg, State.reset.engine.readReg r = 0#32) ∧ State.reset.engine.pending = none ∧
    State.reset.engine.busy = false

/-! ### Invariants -/

/-- The invariants hold at `State.reset` (MEM_SIZE there is the model's choice, log entry 2). -/
def Obligations.ResetMeetsInvariants : Prop := State.reset.Inv ∧ State.reset.NoConflict

/-- 10_state R26, R33, R38; 20_memory R60: every step keeps a legal STATUS, PENDING `none` exactly when not BUSY,
RESULT below 2^35 and 0 unless a command succeeded, and memory in canonical form below MEM_SIZE. -/
def Obligations.StepKeepsInvariant : Prop := ∀ s t : State, s.Inv → step s = .next t → t.Inv

/-- 60_exceptions R265: no step puts two engines' conflicting regions in flight. -/
def Obligations.StepKeepsNoConflict : Prop :=
  ∀ s t : State, s.Inv → s.NoConflict → step s = .next t → t.NoConflict

/-- Two canonical memories that read the same everywhere are equal data (the model's form of 20_memory R60). -/
def Obligations.CanonicalMemoryExtensional : Prop :=
  ∀ m m' : Memory, m.wf → m'.wf → (∀ a, m.read a = m'.read a) → m = m'

/-! ### Steps and agents -/

/-- A step runs the decoded command: the word `withFetchWord` places, on the focused engine; and the command pending
in engine `k`, with that engine in focus (40_command_cycle R122; 60_exceptions R265). -/
def Obligations.StepRunsDecodedInstruction : Prop :=
  (∀ (s : State) (w : Nat) (i : Instr), decodeTableWord 32 w = some i →
    step (s.withFetchWord 32 w) =
      exec i { s with engine := { s.engine with
        pending := some (.command i), status := 0x01#32, result := 0#64 } }) ∧
  (∀ (s u : State) (k : Nat) (e : Engine) (i : Instr), s.EngineMoves k e u →
    e.pending = some (.command i) →
    (u.swap k).engine = e ∧
    step s =
      match exec i (u.swap k) with
      | .next t => .next (t.swap k)
      | .fault f => .fault f
      | .refused r => .refused r)

/-- 40_command_cycle R122, R128: an engine moves only when it has a command pending, and its step ends that command
and leaves every other engine as it was (60_exceptions R265). -/
def Obligations.EngineStepCompletesItsCommand : Prop :=
  ∀ (s : State) (k : Nat) (rest : List Agent), s.nextAgent = some (.engine k, rest) →
    ∃ e, s.engineAt k = some e ∧ e.pending ≠ none ∧
      ∀ t, step s = .next t →
        (∃ d, t.engineAt k = some d ∧ d.pending = none ∧ e.SameOperands d) ∧
        (∀ j, j ≠ k → t.engineAt j = s.engineAt j)

/-- 70_reset_and_hazards R293: whatever the schedule, an accepted command completes within a bounded number of
steps, with the operands it was accepted with, unless the host resets its engine or the run stops. The bound
rests on the order after the schedule ends, the model's choice (log entry 1, DESIGN CHOICE). -/
def Obligations.AcceptedCommandCompletes : Prop :=
  ∀ (s : State) (k : Nat) (e : Engine), s.Inv → s.engineAt k = some e → e.pending ≠ none →
    .reset k ∉ s.script →
    ∃ n, n ≤ s.schedule.length + s.engines.length ∧
      match Sys2Proof.core.run n s with
      | .next t => ∃ d, State.engineAt t k = some d ∧ d.pending = none ∧ d.done = true ∧
          d.busy = false ∧ e.SameOperands d
      | .fault _ => True
      | .refused _ => True

/-- 30_encoding R102, 70_reset_and_hazards R293: one turn of POLL records the word of STATUS and stays in the script
exactly while BUSY reads 1, and changes nothing else (log entry 16, DESIGN CHOICE: one read is one step); and a
POLL loop ends, whatever the schedule, unless the run stops, and when it has ended the last reading is a STATUS
word whose BUSY is 0. The bound rests on the order after the schedule ends, the model's choice (log entry 1,
DESIGN CHOICE). -/
def Obligations.PollEnds : Prop :=
  (∀ (s u : State) (k : Nat) (e : Engine), s.HostMoves (.poll k) u → s.engineAt k = some e →
    (e.status.getLsbD 0 = true →
      step s = .next { u with script := .poll k :: u.script, reads := u.reads ++ [.word e.status] }) ∧
    (e.status.getLsbD 0 = false →
      step s = .next { u with reads := u.reads ++ [.word e.status] })) ∧
  (∀ (s : State) (k : Nat) (as : List HostAction), s.Inv → s.script = .poll k :: as →
    ∃ n, n ≤ s.schedule.length + s.engines.length + 1 ∧
      match Sys2Proof.core.run n s with
      | .next t => State.script t = as ∧
          ∃ w : Word, (State.reads t).getLast? = some (.word w) ∧ w.getLsbD 0 = false
      | .fault _ => True
      | .refused _ => True)

/-! ### The host and memory -/

/-- 70_reset_and_hazards R286: a host write that touches a region of a command in flight, or a host read that
touches its destination, is refused; a host read that touches no destination is allowed. The hypotheses on the
accessed bytes exclude what log entries 10 and 13 stop. -/
def Obligations.HostHazardRefused : Prop :=
  (∀ (s u : State) (addr : Nat) (bytes : List Byte) (src dst : Region),
    s.HostMoves (.mw addr bytes) u → addr + bytes.length ≤ s.platform.memSize →
    s.platform.touchesDevice ⟨addr, bytes.length⟩ = false → (src, dst) ∈ s.inFlight →
    (∃ a, Region.contains ⟨addr, bytes.length⟩ a = true ∧
      (src.contains a = true ∨ dst.contains a = true)) →
    step s = .refused .hostHazard) ∧
  (∀ (s u : State) (addr n : Nat) (src dst : Region),
    s.HostMoves (.mr addr n) u → addr + n ≤ s.platform.memSize →
    s.platform.touchesDevice ⟨addr, n⟩ = false → (src, dst) ∈ s.inFlight →
    (∃ a, Region.contains ⟨addr, n⟩ a = true ∧ dst.contains a = true) →
    step s = .refused .hostHazard) ∧
  (∀ (s u : State) (addr n : Nat),
    s.HostMoves (.mr addr n) u → addr + n ≤ s.platform.memSize →
    s.platform.touchesDevice ⟨addr, n⟩ = false →
    (∀ x ∈ s.inFlight, ∀ a, Region.contains ⟨addr, n⟩ a = true → x.2.contains a = false) →
    step s = .next { u with reads := u.reads ++ [.bytes (s.mem.readBytes addr n)] })

/-- 70_reset_and_hazards R295: an allowed host write stores its bytes and changes nothing else. -/
def Obligations.HostMemoryWrite : Prop :=
  ∀ (s u : State) (addr : Nat) (bytes : List Byte),
    s.HostMoves (.mw addr bytes) u → addr + bytes.length ≤ s.platform.memSize →
    s.platform.touchesDevice ⟨addr, bytes.length⟩ = false →
    (∀ x ∈ s.inFlight, ∀ a, Region.contains ⟨addr, bytes.length⟩ a = true →
      x.1.contains a = false ∧ x.2.contains a = false) →
    ∃ t, step s = .next t ∧ t.engine = s.engine ∧ t.draws = s.draws ∧ u.SameSurroundings t ∧
      (∀ j, j < bytes.length → t.mem.read (addr + j) = bytes.getD j 0#8) ∧
      s.mem.SameOutside t.mem ⟨addr, bytes.length⟩

/-- The model's own stops for host actions (log entries 10, 11, 13): a write or read of bytes that are not all in
memory, or that touch device memory, and a RESET or POLL of an engine that does not exist. -/
def Obligations.HostActionsThatStop : Prop :=
  (∀ (s u : State) (addr : Nat) (bytes : List Byte), s.HostMoves (.mw addr bytes) u →
    (¬Region.InMemory ⟨addr, bytes.length⟩ s.platform.memSize →
      step s = .fault .hostAddressOutsideMemory) ∧
    (Region.InMemory ⟨addr, bytes.length⟩ s.platform.memSize →
      (∃ d ∈ s.platform.devices, ∃ a, d.contains a = true ∧
        Region.contains ⟨addr, bytes.length⟩ a = true) → step s = .refused .deviceMemory)) ∧
  (∀ (s u : State) (addr n : Nat), s.HostMoves (.mr addr n) u →
    (¬Region.InMemory ⟨addr, n⟩ s.platform.memSize → step s = .fault .hostAddressOutsideMemory) ∧
    (Region.InMemory ⟨addr, n⟩ s.platform.memSize →
      (∃ d ∈ s.platform.devices, ∃ a, d.contains a = true ∧ Region.contains ⟨addr, n⟩ a = true) →
        step s = .refused .deviceMemory)) ∧
  (∀ (s u : State) (k : Nat) (a : HostAction), a = .reset k ∨ a = .poll k → s.HostMoves a u →
    s.engines.length ≤ k → step s = .fault .noSuchEngine)

/-- 60_exceptions R265: a CMD write that would put a command in flight whose regions conflict with those of another
engine's command is refused. That the refusal falls on the accept is the model's reading (log entry 12). -/
def Obligations.ConflictingAcceptRefused : Prop :=
  ∀ (s u : State) (word k j : Nat) (w : Word) (e d : Engine) (x y : Region × Region),
    s.HostMoves (.wr word w) u → s.portTarget (4 * word) = some (k, .cmd) → s.engineAt k = some e →
    e.busy = false → (e.accept w).inFlight = some x → j ≠ k → s.engineAt j = some d →
    d.inFlight = some y →
    (∃ a, (x.2.contains a = true ∧ (y.1.contains a = true ∨ y.2.contains a = true)) ∨
      (x.1.contains a = true ∧ y.2.contains a = true)) →
    step s = .refused .engineConflict

/-! ### The datapath -/

/-- 41_control_coder R140: the length code is the smallest that fits. -/
def Obligations.LengthCodeMinimal : Prop :=
  ∀ v : Word, v.toNat < 256 ^ ((lengthCode v).toNat + 1) ∧
    ∀ c : LengthCode, v.toNat < 256 ^ (c.toNat + 1) → (lengthCode v).toNat ≤ c.toNat

/-- 41_control_coder R141: the byte-test form is the same function. -/
def Obligations.LengthCodeByteTest : Prop :=
  ∀ v : Word, lengthCode v =
    if v.extractLsb' 24 8 ≠ 0#8 then 3#2
    else if v.extractLsb' 16 8 ≠ 0#8 then 2#2
    else if v.extractLsb' 8 8 ≠ 0#8 then 1#2
    else 0#2

/-- 41_control_coder R145: packing and unpacking are inverse. -/
def Obligations.PackUnpackInverse : Prop :=
  (∀ c0 c1 c2 c3 : LengthCode, unpackControlByte (packControlByte c0 c1 c2 c3) = [c0, c1, c2, c3]) ∧
  (∀ b : Byte, ∃ c0 c1 c2 c3, unpackControlByte b = [c0, c1, c2, c3] ∧ packControlByte c0 c1 c2 c3 = b)

/-- 42_data_stream R160, R162: the bytes of a value, and that one value in its own width reads back. -/
def Obligations.ValueBytesRoundTrip : Prop :=
  (∀ (v : Word) (c : LengthCode), (writeValue v c).length = c.toNat + 1 ∧
    ∀ k, k ≤ c.toNat → (writeValue v c).getD k 0#8 = v.extractLsb' (8 * k) 8) ∧
  (∀ v : Word, readValue (writeValue v (lengthCode v)) 0 (lengthCode v) =
    some (v, (lengthCode v).toNat + 1))

/-- 20_memory R65, R66: an integer array is 4-byte little-endian elements, wherever it stands: each byte of a written
and of a read element, what a write leaves, and reading back what was written. -/
def Obligations.IntegerArrayLayout : Prop :=
  ∀ (m : Memory) (a : Nat) (vals : List Word),
    (m.writeInts a vals).readInts a vals.length = vals ∧
    (∀ i k, i < vals.length → k < 4 →
      (m.writeInts a vals).read (a + 4 * i + k) = (vals.getD i 0#32).extractLsb' (8 * k) 8) ∧
    m.SameOutside (m.writeInts a vals) ⟨a, 4 * vals.length⟩ ∧
    ∀ n i k, i < n → k < 4 →
      ((m.readInts a n).getD i 0#32).extractLsb' (8 * k) 8 = m.read (a + 4 * i + k)

/-! ### The host port's words -/

/-- 10_state R22, R34: every word the host port can name is one of the sixteen words of an engine's window, at an
offset that is a multiple of 4, or lies outside that window. That BASE is a multiple of 4 is DEDUCED (log entry
21). -/
def Obligations.PortWordsAreAligned : Prop :=
  ∀ (e : Engine) (word : Nat),
    (∃ r : Reg, e.portReg (4 * word) = some r ∧ 4 * word = e.base + r.offset ∧ r.offset % 4 = 0) ∨
    (e.portReg (4 * word) = none ∧ (4 * word < e.base ∨ e.base + 64 ≤ 4 * word))

/-- 10_state R34: a host port access outside the window of every engine is no access to one. The model's choice
beyond that (log entry 9, DESIGN CHOICE): a WR there changes nothing of this machine, and an RD there adds one
word to the host's record and changes nothing else but the counter of free values; which word is free. -/
def Obligations.AccessOutsideWindows : Prop :=
  (∀ (s u : State) (word : Nat) (w : Word), s.HostMoves (.wr word w) u →
    (∀ e ∈ s.engines, 4 * word < e.base ∨ e.base + 64 ≤ 4 * word) → step s = .next u) ∧
  (∀ (s u : State) (word : Nat), s.HostMoves (.rd word) u →
    (∀ e ∈ s.engines, 4 * word < e.base ∨ e.base + 64 ≤ 4 * word) →
    ∃ (v : Word) (draws : Nat),
      step s = .next { u with draws := draws, reads := u.reads ++ [.word v] })
end

