-- ==== Sys2Proof/Laws/Memory.lean ====
section
/-! SUPPORT. Laws of engine memory: reads after writes, and the canonical form every operation keeps. -/

namespace Sys2Proof.Machine

@[simp] theorem Memory.read_nil (a : Nat) : Memory.read [] a = Memory.unlisted := rfl

theorem Memory.read_erase (m : Memory) (a x : Nat) :
    (m.erase a).read x = if x = a then Memory.unlisted else m.read x := by
  induction m with
  | nil => simp [Memory.erase]
  | cons c m ih =>
    obtain ⟨y, b⟩ := c
    by_cases hy : y = a
    · subst hy
      by_cases hx : x = y
      · simpa [Memory.erase, hx] using ih
      · have : y ≠ x := fun h => hx h.symm
        simpa [Memory.erase, Memory.read, hx, this] using ih
    · by_cases hx : y = x
      · subst hx
        simp [Memory.erase, Memory.read, hy]
      · simp [Memory.erase, Memory.read, hy, hx, ih]

theorem Memory.read_insert_self (m : Memory) (a : Nat) (v : Byte)
    (h : ∀ c ∈ m, c.1 ≠ a) : (Memory.insert m a v).read a = v := by
  induction m with
  | nil => simp [Memory.insert, Memory.read]
  | cons c m ih =>
    obtain ⟨y, b⟩ := c
    have hy : y ≠ a := h (y, b) (by simp)
    unfold Memory.insert
    split
    · simp [Memory.read]
    · simpa [Memory.read, hy] using ih (fun c hc => h c (by simp [hc]))

theorem Memory.read_insert_other (m : Memory) {a x : Nat} (v : Byte) (hx : x ≠ a) :
    (Memory.insert m a v).read x = m.read x := by
  have hx' : a ≠ x := fun h => hx h.symm
  induction m with
  | nil => simp [Memory.insert, Memory.read, hx']
  | cons c m ih =>
    obtain ⟨y, b⟩ := c
    unfold Memory.insert
    split
    · simp [Memory.read, hx']
    · simp [Memory.read, ih]

theorem Memory.erase_subset (m : Memory) (a : Nat) : ∀ c ∈ m.erase a, c ∈ m ∧ c.1 ≠ a := by
  induction m with
  | nil => simp [Memory.erase]
  | cons d m ih =>
    obtain ⟨y, b⟩ := d
    intro c hc
    unfold Memory.erase at hc
    split at hc
    · exact ⟨List.mem_cons_of_mem _ (ih c hc).1, (ih c hc).2⟩
    · rcases List.mem_cons.1 hc with rfl | hc
      · exact ⟨by simp, by assumption⟩
      · exact ⟨List.mem_cons_of_mem _ (ih c hc).1, (ih c hc).2⟩

/-- A read after one write: the byte written at its address, what was there everywhere else. -/
theorem Memory.read_write (m : Memory) (a x : Nat) (v : Byte) :
    (m.write a v).read x = if x = a then v else m.read x := by
  unfold Memory.write
  by_cases hx : x = a
  · subst hx
    split
    · simp [Memory.read_erase, *]
    · simpa using Memory.read_insert_self (m.erase x) x v (fun c hc => (Memory.erase_subset m x c hc).2)
  · split
    · simp [Memory.read_erase, hx]
    · simp [Memory.read_insert_other _ v hx, Memory.read_erase, hx]

theorem Memory.mem_insert {m : Memory} {a : Nat} {v : Byte} {c : Host.Cell}
    (hc : c ∈ Memory.insert m a v) : c = (a, v) ∨ c ∈ m := by
  induction m with
  | nil => simpa [Memory.insert] using hc
  | cons d m ih =>
    obtain ⟨y, b⟩ := d
    unfold Memory.insert at hc
    split at hc
    · simpa using hc
    · rcases List.mem_cons.1 hc with rfl | hc
      · simp
      · rcases ih hc with h | h
        · exact .inl h
        · exact .inr (List.mem_cons_of_mem _ h)

theorem Memory.erase_pairwise {m : Memory} (h : m.Pairwise (fun x y => x.1 < y.1)) (a : Nat) :
    (m.erase a).Pairwise (fun x y => x.1 < y.1) := by
  induction m with
  | nil => simp [Memory.erase]
  | cons d m ih =>
    obtain ⟨y, b⟩ := d
    rw [List.pairwise_cons] at h
    unfold Memory.erase
    split
    · exact ih h.2
    · exact List.pairwise_cons.2 ⟨fun c hc => h.1 c (Memory.erase_subset m a c hc).1, ih h.2⟩

theorem Memory.insert_pairwise {m : Memory} (h : m.Pairwise (fun x y => x.1 < y.1)) {a : Nat}
    (v : Byte) (ha : ∀ c ∈ m, c.1 ≠ a) :
    (Memory.insert m a v).Pairwise (fun x y => x.1 < y.1) := by
  induction m with
  | nil => simp [Memory.insert]
  | cons d m ih =>
    obtain ⟨y, b⟩ := d
    have h' := List.pairwise_cons.1 h
    unfold Memory.insert
    split
    case isTrue hlt =>
      refine List.pairwise_cons.2 ⟨fun c hc => ?_, h⟩
      rcases List.mem_cons.1 hc with rfl | hc
      · exact hlt
      · exact Nat.lt_trans hlt (h'.1 c hc)
    case isFalse hge =>
      have hy : y ≠ a := ha (y, b) (by simp)
      refine List.pairwise_cons.2 ⟨fun c hc => ?_, ih h'.2 (fun c hc => ha c (by simp [hc]))⟩
      rcases Memory.mem_insert hc with rfl | hc
      · show y < a
        omega
      · exact h'.1 c hc

theorem Memory.mem_write {m : Memory} {a : Nat} {v : Byte} {c : Host.Cell} (hc : c ∈ m.write a v) :
    (c = (a, v) ∧ v ≠ Memory.unlisted) ∨ c ∈ m := by
  unfold Memory.write at hc
  split at hc
  · exact .inr (Memory.erase_subset m a c hc).1
  · rcases Memory.mem_insert hc with h | h
    · exact .inl ⟨h, by assumption⟩
    · exact .inr (Memory.erase_subset m a c h).1

/-- A write keeps the canonical form. -/
theorem Memory.write_wf {m : Memory} (h : m.wf) (a : Nat) (v : Byte) : (m.write a v).wf := by
  refine ⟨?_, fun c hc => ?_⟩
  · unfold Memory.write
    split
    · exact Memory.erase_pairwise h.1 a
    · exact Memory.insert_pairwise (Memory.erase_pairwise h.1 a) v
        (fun c hc => (Memory.erase_subset m a c hc).2)
  · rcases Memory.mem_write hc with ⟨rfl, hv⟩ | hc
    · exact hv
    · exact h.2 c hc

theorem Memory.write_below {m : Memory} {size : Nat} (h : m.below size) {a : Nat} (ha : a < size)
    (v : Byte) : (m.write a v).below size := by
  intro c hc
  rcases Memory.mem_write hc with ⟨rfl, -⟩ | hc
  · exact ha
  · exact h c hc

/-- A read after a run of writes. -/
theorem Memory.read_writeBytes (bs : List Byte) (m : Memory) (a x : Nat) :
    (m.writeBytes a bs).read x =
      if a ≤ x ∧ x < a + bs.length then bs.getD (x - a) 0#8 else m.read x := by
  induction bs generalizing m a with
  | nil => rw [if_neg (by rw [List.length_nil]; omega), Memory.writeBytes]
  | cons b bs ih =>
    rw [Memory.writeBytes, ih, Memory.read_write, List.length_cons]
    by_cases hx : x = a
    · subst hx
      rw [if_neg (by omega), if_pos rfl, if_pos (by omega), Nat.sub_self, List.getD_cons_zero]
    · by_cases hin : a + 1 ≤ x ∧ x < a + 1 + bs.length
      · rw [if_pos hin, if_pos (by omega), show x - a = (x - (a + 1)) + 1 by omega, List.getD_cons_succ]
      · rw [if_neg hin, if_neg hx, if_neg (by omega)]

/-- A run of writes leaves every address outside it alone. -/
theorem Memory.read_writeBytes_outside (bs : List Byte) (m : Memory) {a x : Nat}
    (hx : ¬(a ≤ x ∧ x < a + bs.length)) : (m.writeBytes a bs).read x = m.read x := by
  rw [Memory.read_writeBytes, if_neg hx]

theorem Memory.writeBytes_wf (bs : List Byte) {m : Memory} (h : m.wf) (a : Nat) :
    (m.writeBytes a bs).wf := by
  induction bs generalizing m a with
  | nil => exact h
  | cons b bs ih => exact ih (Memory.write_wf h a b) (a + 1)

theorem Memory.writeBytes_below (bs : List Byte) {m : Memory} {size : Nat} (h : m.below size)
    {a : Nat} (ha : bs.length = 0 ∨ a + bs.length ≤ size) : (m.writeBytes a bs).below size := by
  induction bs generalizing m a with
  | nil => exact h
  | cons b bs ih =>
    simp only [List.length_cons] at ha
    exact ih (Memory.write_below h (by omega) b) (by omega)

/-- A read after a run of bytes is replaced. -/
theorem Memory.read_fill (f : Nat → Byte) (n : Nat) (m : Memory) (a x : Nat) :
    (m.fill f a n).read x = if a ≤ x ∧ x < a + n then f x else m.read x := by
  induction n generalizing m a with
  | zero => rw [if_neg (by omega), Memory.fill]
  | succ n ih =>
    rw [Memory.fill, ih, Memory.read_write]
    by_cases hx : x = a
    · subst hx
      rw [if_neg (by omega), if_pos rfl, if_pos (by omega)]
    · by_cases hin : a + 1 ≤ x ∧ x < a + 1 + n
      · rw [if_pos hin, if_pos (by omega)]
      · rw [if_neg hin, if_neg hx, if_neg (by omega)]

theorem Memory.fill_wf (f : Nat → Byte) (n : Nat) {m : Memory} (h : m.wf) (a : Nat) :
    (m.fill f a n).wf := by
  induction n generalizing m a with
  | zero => exact h
  | succ n ih => exact ih (Memory.write_wf h a (f a)) (a + 1)

theorem Memory.fill_below (f : Nat → Byte) (n : Nat) {m : Memory} {size : Nat} (h : m.below size)
    {a : Nat} (ha : n = 0 ∨ a + n ≤ size) : (m.fill f a n).below size := by
  induction n generalizing m a with
  | zero => exact h
  | succ n ih => exact ih (Memory.write_below h (by omega) (f a)) (by omega)

@[simp] theorem Memory.length_readBytes (m : Memory) (a n : Nat) : (m.readBytes a n).length = n := by
  induction n generalizing a with
  | zero => rfl
  | succ n ih => simp [Memory.readBytes, ih]

theorem Memory.getD_readBytes (m : Memory) (n : Nat) (a k : Nat) (hk : k < n) :
    (m.readBytes a n).getD k 0#8 = m.read (a + k) := by
  induction n generalizing a k with
  | zero => omega
  | succ n ih =>
    cases k with
    | zero => simp [Memory.readBytes]
    | succ k =>
      have := ih (a + 1) k (by omega)
      rw [show a + 1 + k = a + (k + 1) by omega] at this
      simpa [Memory.readBytes] using this

/-- Two memories that agree on a run of addresses give the same bytes there. -/
theorem Memory.readBytes_congr (n : Nat) {m m' : Memory} {a : Nat}
    (h : ∀ x, a ≤ x → x < a + n → m.read x = m'.read x) : m.readBytes a n = m'.readBytes a n := by
  induction n generalizing a with
  | zero => rfl
  | succ n ih =>
    rw [Memory.readBytes, Memory.readBytes, h a (by omega) (by omega),
      ih (fun x h1 h2 => h x (by omega) (by omega))]

theorem Memory.readBytes_append (m : Memory) (k n a : Nat) :
    m.readBytes a (k + n) = m.readBytes a k ++ m.readBytes (a + k) n := by
  induction k generalizing a with
  | zero => simp [Memory.readBytes]
  | succ k ih =>
    rw [show k + 1 + n = (k + n) + 1 by omega]
    simp [Memory.readBytes, ih, show a + 1 + k = a + (k + 1) by omega]

/-- Reading back a run of bytes just written. -/
theorem Memory.readBytes_writeBytes (bs : List Byte) (m : Memory) (a : Nat) :
    (m.writeBytes a bs).readBytes a bs.length = bs := by
  induction bs generalizing m a with
  | nil => rfl
  | cons b bs ih =>
    have h : (Memory.writeBytes m a (b :: bs)).read a = b := by
      rw [Memory.read_writeBytes]
      simp
    simp only [List.length_cons, Memory.readBytes, h]
    rw [Memory.writeBytes, ih]

/-- Reading a run of bytes that a write did not touch. -/
theorem Memory.readBytes_writeBytes_disjoint (bs : List Byte) (m : Memory) {a b n : Nat}
    (h : b + n ≤ a ∨ a + bs.length ≤ b) : (m.writeBytes a bs).readBytes b n = m.readBytes b n :=
  Memory.readBytes_congr n fun x h1 h2 => Memory.read_writeBytes_outside bs m (by omega)

theorem Memory.readInt_congr {m m' : Memory} {a i : Nat}
    (h : ∀ x, a + 4 * i ≤ x → x < a + 4 * i + 4 → m.read x = m'.read x) :
    m.readInt a i = m'.readInt a i := by
  rw [Memory.readInt, Memory.readInt, Memory.readBytes_congr 4 h]

@[simp] theorem Memory.length_readInts (m : Memory) (a n : Nat) : (m.readInts a n).length = n := by
  simp [Memory.readInts]

theorem Memory.readInts_congr {m m' : Memory} {a n : Nat}
    (h : ∀ x, a ≤ x → x < a + 4 * n → m.read x = m'.read x) :
    m.readInts a n = m'.readInts a n := by
  refine List.map_congr_left fun i hi => Memory.readInt_congr fun x h1 h2 => h x (by omega) ?_
  have := List.mem_range.1 hi
  omega

@[simp] theorem length_leBytes (n v : Nat) : (leBytes n v).length = n := by
  induction n generalizing v with
  | zero => rfl
  | succ n ih => simp [leBytes, ih]

/-- The bytes of a value give the value back, modulo their width. -/
theorem leValue_leBytes (n v : Nat) : leValue (leBytes n v) = v % 256 ^ n := by
  induction n generalizing v with
  | zero => simp [leBytes, leValue, Nat.mod_one]
  | succ n ih =>
    simp only [leBytes, leValue, ih, BitVec.toNat_ofNat]
    rw [show 256 ^ (n + 1) = 256 * 256 ^ n by rw [Nat.pow_succ, Nat.mul_comm], Nat.mod_mul]

theorem leValue_lt (bs : List Byte) : leValue bs < 256 ^ bs.length := by
  induction bs with
  | nil => simp [leValue]
  | cons b bs ih =>
    have := b.isLt
    simp only [leValue, List.length_cons, Nat.pow_succ]
    omega

@[simp] theorem length_intBytes (vals : List Word) : (intBytes vals).length = 4 * vals.length := by
  induction vals with
  | nil => rfl
  | cons v vs ih => simp [intBytes, ih]; omega

theorem Memory.readInts_succ (m : Memory) (a n : Nat) :
    m.readInts a (n + 1) = m.readInt a 0 :: m.readInts (a + 4) n := by
  simp only [Memory.readInts, List.range_succ_eq_map, List.map_cons, List.map_map]
  refine congrArg _ (List.map_congr_left fun i _ => ?_)
  simp only [Function.comp, Memory.readInt, Nat.mul_succ]
  rw [show a + (4 * i + 4) = a + 4 + 4 * i by omega]

end Sys2Proof.Machine
end

