-- ==== Sys2Proof/Laws/Codec.lean ====
section
/-! SUPPORT. Laws of the datapath: lane by lane for the control bytes, sizes and positions for the streams,
and what a decode that succeeds has done. -/

namespace Sys2Proof.Machine

/-! ### Control bytes -/

theorem width_pos (c : LengthCode) : 1 ≤ width c := by simp [width]

theorem width_le (c : LengthCode) : width c ≤ 4 := by
  have := c.isLt
  simp only [width]
  omega

/-- Each slot of a packed byte is the code put there. -/
theorem controlSlot_packControlByte (c0 c1 c2 c3 : LengthCode) :
    controlSlot (packControlByte c0 c1 c2 c3) 0 = c0 ∧
      controlSlot (packControlByte c0 c1 c2 c3) 1 = c1 ∧
      controlSlot (packControlByte c0 c1 c2 c3) 2 = c2 ∧
      controlSlot (packControlByte c0 c1 c2 c3) 3 = c3 := by
  revert c0 c1 c2 c3
  decide

/-- Slot `k` of the control byte of group `g` is the code of element `4g + k`. -/
theorem controlSlot_groupControlByte (vals : List Word) (g : Nat) {k : Nat} (hk : k < 4) :
    controlSlot (groupControlByte vals g) k = slotCode vals (4 * g + k) := by
  obtain ⟨h0, h1, h2, h3⟩ := controlSlot_packControlByte (slotCode vals (4 * g))
    (slotCode vals (4 * g + 1)) (slotCode vals (4 * g + 2)) (slotCode vals (4 * g + 3))
  match k, hk with
  | 0, _ => exact h0
  | 1, _ => exact h1
  | 2, _ => exact h2
  | 3, _ => exact h3

@[simp] theorem length_controlRegion (vals : List Word) :
    (controlRegion vals).length = ceil4 vals.length := by
  simp [controlRegion]

theorem getD_controlRegion (vals : List Word) {g : Nat} (hg : g < ceil4 vals.length) :
    (controlRegion vals).getD g 0#8 = groupControlByte vals g := by
  simp [controlRegion, List.getD, List.getElem?_map, List.getElem?_range hg]

/-- The code the decoder reads for element `i` of an encoded sequence is the one the encoder chose. -/
theorem codeOf_controlRegion (vals : List Word) {i : Nat} (hi : i < vals.length) :
    codeOf (controlRegion vals) i = slotCode vals i := by
  have hg : i / 4 < ceil4 vals.length := by
    simp only [ceil4]
    omega
  rw [codeOf, getD_controlRegion vals hg,
    controlSlot_groupControlByte vals (i / 4) (Nat.mod_lt i (by decide)), Nat.div_add_mod]

/-! ### The length code -/

/-- The code chosen is wide enough. -/
theorem lt_pow_lengthCode (v : Word) : v.toNat < 256 ^ width (lengthCode v) := by
  have hv := v.isLt
  unfold lengthCode width
  split
  · simpa using ‹v.toNat < 0x100›
  split
  · simpa using ‹v.toNat < 0x10000›
  split
  · simpa using ‹v.toNat < 0x1000000›
  · simpa using hv

/-! ### Values -/

@[simp] theorem length_writeValue (v : Word) (c : LengthCode) : (writeValue v c).length = width c := by
  simp [writeValue]

/-- A value that fits its width is read back from its bytes, wherever they stand and whatever follows: the
reader does not ask for the smallest width. -/
theorem readValue_writeValue {v : Word} {c : LengthCode} (h : v.toNat < 256 ^ width c)
    (pre post : List Byte) :
    readValue (pre ++ writeValue v c ++ post) pre.length c = some (v, width c) := by
  have hdrop : (pre ++ writeValue v c ++ post).drop pre.length = writeValue v c ++ post := by
    simp [List.append_assoc]
  have htake : (writeValue v c ++ post).take (width c) = writeValue v c :=
    List.take_left' (length_writeValue v c)
  have hlen : ¬(pre ++ writeValue v c ++ post).length < pre.length + width c := by
    simp only [List.length_append, length_writeValue]
    omega
  rw [readValue, if_neg hlen, hdrop, htake, writeValue, leValue_leBytes, Nat.mod_eq_of_lt h,
    BitVec.ofNat_toNat, BitVec.setWidth_eq]

theorem readValue_eq_none_iff (bytes : List Byte) (p : Nat) (c : LengthCode) :
    readValue bytes p c = none ↔ bytes.length < p + width c := by
  unfold readValue
  split <;> simp [*]

theorem readValue_width {bytes : List Byte} {p w : Nat} {c : LengthCode} {v : Word}
    (h : readValue bytes p c = some (v, w)) : w = width c ∧ p + w ≤ bytes.length := by
  unfold readValue at h
  split at h
  · cases h
  · cases h
    exact ⟨rfl, by omega⟩

/-! ### Sizes of the streams -/

theorem length_dataRegion_bounds (vals : List Word) :
    vals.length ≤ (dataRegion vals).length ∧ (dataRegion vals).length ≤ 4 * vals.length := by
  induction vals with
  | nil => simp [dataRegion]
  | cons v vs ih =>
    have h1 := width_pos (lengthCode v)
    have h4 := width_le (lengthCode v)
    simp only [dataRegion, List.length_append, List.length_cons, length_writeValue]
    omega

theorem length_encodeStream_le (vals : List Word) :
    (encodeStream vals).length ≤ maxCompressedBytes vals.length := by
  have := (length_dataRegion_bounds vals).2
  simp only [encodeStream, List.length_append, length_controlRegion, maxCompressedBytes]
  omega

theorem maxCompressedBytes_lt {n : Nat} (h : n < 2 ^ 32) : maxCompressedBytes n < 2 ^ 35 := by
  simp only [maxCompressedBytes, ceil4]
  omega

@[simp] theorem length_deltaTransform (prev : Word) (vals : List Word) :
    (deltaTransform prev vals).length = vals.length := by
  induction vals generalizing prev with
  | nil => rfl
  | cons v vs ih => simp [deltaTransform, ih]

@[simp] theorem length_deltaAccumulate (prev : Word) (ds : List Word) :
    (deltaAccumulate prev ds).length = ds.length := by
  induction ds generalizing prev with
  | nil => rfl
  | cons d ds ih => simp [deltaAccumulate, ih]

/-! ### The element loop of the decoder -/

/-- One more element: its value is read, and then the rest. -/
theorem decodeElements_succ_eq_some {bytes ctrl : List Byte} {k i p q : Nat} {vs : List Word}
    (h : decodeElements bytes ctrl (k + 1) i p = some (vs, q)) :
    ∃ v w rest, readValue bytes p (codeOf ctrl i) = some (v, w) ∧
      decodeElements bytes ctrl k (i + 1) (p + w) = some (rest, q) ∧ vs = v :: rest := by
  unfold decodeElements at h
  split at h
  · cases h
  · split at h
    · cases h
    · next v w hv _ rest q' hrest =>
      cases h
      exact ⟨v, w, rest, hv, hrest, rfl⟩

/-- A decode that succeeds gives one value per element, and its cursor moves at most 4 bytes for each. -/
theorem decodeElements_spec {bytes ctrl : List Byte} {k i p q : Nat} {vs : List Word}
    (h : decodeElements bytes ctrl k i p = some (vs, q)) :
    vs.length = k ∧ p ≤ q ∧ q ≤ p + 4 * k := by
  induction k generalizing i p vs with
  | zero =>
    cases h
    simp
  | succ k ih =>
    obtain ⟨v, w, rest, hv, hrest, rfl⟩ := decodeElements_succ_eq_some h
    have hw := (readValue_width hv).1
    have h4 := width_le (codeOf ctrl i)
    have := ih hrest
    simp only [List.length_cons]
    omega

/-- A decode that succeeds gives `n` values and consumes at most the capacity bound. -/
theorem decodeStream_spec {bytes : List Byte} {n q : Nat} {vs : List Word}
    (h : decodeStream bytes n = some (vs, q)) : vs.length = n ∧ q ≤ maxCompressedBytes n := by
  unfold decodeStream at h
  split at h
  · cases h
    simp [*]
  split at h
  · cases h
  · have := decodeElements_spec h
    simp only [maxCompressedBytes]
    omega

end Sys2Proof.Machine
end

