-- ==== Sys2Proof/Laws/State.lean ====
section
/-! SUPPORT. One lemma per field per named update, so that no later proof unfolds a record update. -/

namespace Sys2Proof.Machine

/-! ### The updates of an engine -/

@[simp] theorem Engine.accept_baseWord (e : Engine) (w : Word) : (e.accept w).baseWord = e.baseWord := rfl
@[simp] theorem Engine.accept_status (e : Engine) (w : Word) : (e.accept w).status = statusWord true false noError := rfl
@[simp] theorem Engine.accept_count (e : Engine) (w : Word) : (e.accept w).count = e.count := rfl
@[simp] theorem Engine.accept_seed (e : Engine) (w : Word) : (e.accept w).seed = e.seed := rfl
@[simp] theorem Engine.accept_srcAddr (e : Engine) (w : Word) : (e.accept w).srcAddr = e.srcAddr := rfl
@[simp] theorem Engine.accept_srcLen (e : Engine) (w : Word) : (e.accept w).srcLen = e.srcLen := rfl
@[simp] theorem Engine.accept_dstAddr (e : Engine) (w : Word) : (e.accept w).dstAddr = e.dstAddr := rfl
@[simp] theorem Engine.accept_dstLen (e : Engine) (w : Word) : (e.accept w).dstLen = e.dstLen := rfl
@[simp] theorem Engine.accept_result (e : Engine) (w : Word) : (e.accept w).result = 0#64 := rfl
@[simp] theorem Engine.accept_pending (e : Engine) (w : Word) : (e.accept w).pending = some (classify w) := rfl
@[simp] theorem Engine.accept_prev (e : Engine) (w : Word) : (e.accept w).prev = e.prev := rfl
@[simp] theorem Engine.accept_cursors (e : Engine) (w : Word) : (e.accept w).cursors = e.cursors := rfl

@[simp] theorem Engine.complete_baseWord (e : Engine) (err : BitVec 4) (r : DWord) :
    (e.complete err r).baseWord = e.baseWord := rfl
@[simp] theorem Engine.complete_status (e : Engine) (err : BitVec 4) (r : DWord) :
    (e.complete err r).status = statusWord false true err := rfl
@[simp] theorem Engine.complete_count (e : Engine) (err : BitVec 4) (r : DWord) :
    (e.complete err r).count = e.count := rfl
@[simp] theorem Engine.complete_seed (e : Engine) (err : BitVec 4) (r : DWord) :
    (e.complete err r).seed = e.seed := rfl
@[simp] theorem Engine.complete_srcAddr (e : Engine) (err : BitVec 4) (r : DWord) :
    (e.complete err r).srcAddr = e.srcAddr := rfl
@[simp] theorem Engine.complete_srcLen (e : Engine) (err : BitVec 4) (r : DWord) :
    (e.complete err r).srcLen = e.srcLen := rfl
@[simp] theorem Engine.complete_dstAddr (e : Engine) (err : BitVec 4) (r : DWord) :
    (e.complete err r).dstAddr = e.dstAddr := rfl
@[simp] theorem Engine.complete_dstLen (e : Engine) (err : BitVec 4) (r : DWord) :
    (e.complete err r).dstLen = e.dstLen := rfl
@[simp] theorem Engine.complete_result (e : Engine) (err : BitVec 4) (r : DWord) :
    (e.complete err r).result = r := rfl
@[simp] theorem Engine.complete_pending (e : Engine) (err : BitVec 4) (r : DWord) :
    (e.complete err r).pending = none := rfl
@[simp] theorem Engine.complete_prev (e : Engine) (err : BitVec 4) (r : DWord) :
    (e.complete err r).prev = e.prev := rfl
@[simp] theorem Engine.complete_cursors (e : Engine) (err : BitVec 4) (r : DWord) :
    (e.complete err r).cursors = e.cursors := rfl

@[simp] theorem Engine.afterReset_baseWord (e : Engine) (d : Nat) : (e.afterReset d).baseWord = e.baseWord := rfl
@[simp] theorem Engine.afterReset_status (e : Engine) (d : Nat) : (e.afterReset d).status = 0#32 := rfl
@[simp] theorem Engine.afterReset_count (e : Engine) (d : Nat) : (e.afterReset d).count = 0#32 := rfl
@[simp] theorem Engine.afterReset_seed (e : Engine) (d : Nat) : (e.afterReset d).seed = 0#32 := rfl
@[simp] theorem Engine.afterReset_srcAddr (e : Engine) (d : Nat) : (e.afterReset d).srcAddr = 0#64 := rfl
@[simp] theorem Engine.afterReset_srcLen (e : Engine) (d : Nat) : (e.afterReset d).srcLen = 0#64 := rfl
@[simp] theorem Engine.afterReset_dstAddr (e : Engine) (d : Nat) : (e.afterReset d).dstAddr = 0#64 := rfl
@[simp] theorem Engine.afterReset_dstLen (e : Engine) (d : Nat) : (e.afterReset d).dstLen = 0#64 := rfl
@[simp] theorem Engine.afterReset_result (e : Engine) (d : Nat) : (e.afterReset d).result = 0#64 := rfl
@[simp] theorem Engine.afterReset_pending (e : Engine) (d : Nat) : (e.afterReset d).pending = none := rfl
@[simp] theorem Engine.afterReset_prev (e : Engine) (d : Nat) : (e.afterReset d).prev = Config.freeWord d := rfl
@[simp] theorem Engine.afterReset_cursors (e : Engine) (d : Nat) : (e.afterReset d).cursors = Config.freeCursors d := rfl

/-! ### Storing a register word changes that register only -/

@[simp] theorem Engine.storeReg_baseWord (e : Engine) (r : Reg) (w : Word) :
    (e.storeReg r w).baseWord = e.baseWord := by cases r <;> rfl
@[simp] theorem Engine.storeReg_status (e : Engine) (r : Reg) (w : Word) :
    (e.storeReg r w).status = e.status := by cases r <;> rfl
@[simp] theorem Engine.storeReg_result (e : Engine) (r : Reg) (w : Word) :
    (e.storeReg r w).result = e.result := by cases r <;> rfl
@[simp] theorem Engine.storeReg_pending (e : Engine) (r : Reg) (w : Word) :
    (e.storeReg r w).pending = e.pending := by cases r <;> rfl
@[simp] theorem Engine.storeReg_prev (e : Engine) (r : Reg) (w : Word) :
    (e.storeReg r w).prev = e.prev := by cases r <;> rfl
@[simp] theorem Engine.storeReg_cursors (e : Engine) (r : Reg) (w : Word) :
    (e.storeReg r w).cursors = e.cursors := by cases r <;> rfl

/-! ### The completions -/

@[simp] theorem State.completeOk_engine (s : State) (n : Nat) :
    (s.completeOk n).engine = s.engine.complete noError (BitVec.ofNat 64 n) := rfl
@[simp] theorem State.completeOk_peers (s : State) (n : Nat) : (s.completeOk n).peers = s.peers := rfl
@[simp] theorem State.completeOk_mem (s : State) (n : Nat) : (s.completeOk n).mem = s.mem := rfl
@[simp] theorem State.completeOk_platform (s : State) (n : Nat) : (s.completeOk n).platform = s.platform := rfl
@[simp] theorem State.completeOk_script (s : State) (n : Nat) : (s.completeOk n).script = s.script := rfl
@[simp] theorem State.completeOk_schedule (s : State) (n : Nat) : (s.completeOk n).schedule = s.schedule := rfl
@[simp] theorem State.completeOk_reads (s : State) (n : Nat) : (s.completeOk n).reads = s.reads := rfl
@[simp] theorem State.completeOk_draws (s : State) (n : Nat) : (s.completeOk n).draws = s.draws := rfl

@[simp] theorem State.raiseError_engine (s : State) (c : ErrorCode) :
    (s.raiseError c).engine = s.engine.complete (errorCode c) 0#64 := rfl
@[simp] theorem State.raiseError_peers (s : State) (c : ErrorCode) : (s.raiseError c).peers = s.peers := rfl
@[simp] theorem State.raiseError_mem (s : State) (c : ErrorCode) : (s.raiseError c).mem = s.mem := rfl
@[simp] theorem State.raiseError_platform (s : State) (c : ErrorCode) : (s.raiseError c).platform = s.platform := rfl
@[simp] theorem State.raiseError_script (s : State) (c : ErrorCode) : (s.raiseError c).script = s.script := rfl
@[simp] theorem State.raiseError_schedule (s : State) (c : ErrorCode) : (s.raiseError c).schedule = s.schedule := rfl
@[simp] theorem State.raiseError_reads (s : State) (c : ErrorCode) : (s.raiseError c).reads = s.reads := rfl
@[simp] theorem State.raiseError_draws (s : State) (c : ErrorCode) : (s.raiseError c).draws = s.draws := rfl

/-! ### The free values -/

@[simp] theorem State.releaseCursors_engine (s : State) :
    s.releaseCursors.engine = { s.engine with cursors := Config.freeCursors s.draws } := rfl
@[simp] theorem State.releaseCursors_peers (s : State) : s.releaseCursors.peers = s.peers := rfl
@[simp] theorem State.releaseCursors_mem (s : State) : s.releaseCursors.mem = s.mem := rfl
@[simp] theorem State.releaseCursors_platform (s : State) : s.releaseCursors.platform = s.platform := rfl
@[simp] theorem State.releaseCursors_script (s : State) : s.releaseCursors.script = s.script := rfl
@[simp] theorem State.releaseCursors_schedule (s : State) : s.releaseCursors.schedule = s.schedule := rfl
@[simp] theorem State.releaseCursors_reads (s : State) : s.releaseCursors.reads = s.reads := rfl
@[simp] theorem State.releaseCursors_draws (s : State) : s.releaseCursors.draws = s.draws + 1 := rfl

@[simp] theorem State.releasePrev_engine (s : State) :
    s.releasePrev.engine = { s.engine with prev := Config.freeWord s.draws } := rfl
@[simp] theorem State.releasePrev_peers (s : State) : s.releasePrev.peers = s.peers := rfl
@[simp] theorem State.releasePrev_mem (s : State) : s.releasePrev.mem = s.mem := rfl
@[simp] theorem State.releasePrev_platform (s : State) : s.releasePrev.platform = s.platform := rfl
@[simp] theorem State.releasePrev_script (s : State) : s.releasePrev.script = s.script := rfl
@[simp] theorem State.releasePrev_schedule (s : State) : s.releasePrev.schedule = s.schedule := rfl
@[simp] theorem State.releasePrev_reads (s : State) : s.releasePrev.reads = s.reads := rfl
@[simp] theorem State.releasePrev_draws (s : State) : s.releasePrev.draws = s.draws + 1 := rfl

/-! ### Another engine in focus, an engine replaced, a reading recorded -/

@[simp] theorem State.swap_mem (s : State) (k : Nat) : (s.swap k).mem = s.mem := by
  unfold State.swap
  split
  · rfl
  · split <;> rfl
@[simp] theorem State.swap_platform (s : State) (k : Nat) : (s.swap k).platform = s.platform := by
  unfold State.swap
  split
  · rfl
  · split <;> rfl
@[simp] theorem State.swap_script (s : State) (k : Nat) : (s.swap k).script = s.script := by
  unfold State.swap
  split
  · rfl
  · split <;> rfl
@[simp] theorem State.swap_schedule (s : State) (k : Nat) : (s.swap k).schedule = s.schedule := by
  unfold State.swap
  split
  · rfl
  · split <;> rfl
@[simp] theorem State.swap_reads (s : State) (k : Nat) : (s.swap k).reads = s.reads := by
  unfold State.swap
  split
  · rfl
  · split <;> rfl
@[simp] theorem State.swap_draws (s : State) (k : Nat) : (s.swap k).draws = s.draws := by
  unfold State.swap
  split
  · rfl
  · split <;> rfl

@[simp] theorem State.setEngineAt_mem (s : State) (k : Nat) (e : Engine) :
    (s.setEngineAt k e).mem = s.mem := by cases k <;> rfl
@[simp] theorem State.setEngineAt_platform (s : State) (k : Nat) (e : Engine) :
    (s.setEngineAt k e).platform = s.platform := by cases k <;> rfl
@[simp] theorem State.setEngineAt_script (s : State) (k : Nat) (e : Engine) :
    (s.setEngineAt k e).script = s.script := by cases k <;> rfl
@[simp] theorem State.setEngineAt_schedule (s : State) (k : Nat) (e : Engine) :
    (s.setEngineAt k e).schedule = s.schedule := by cases k <;> rfl
@[simp] theorem State.setEngineAt_reads (s : State) (k : Nat) (e : Engine) :
    (s.setEngineAt k e).reads = s.reads := by cases k <;> rfl
@[simp] theorem State.setEngineAt_draws (s : State) (k : Nat) (e : Engine) :
    (s.setEngineAt k e).draws = s.draws := by cases k <;> rfl

@[simp] theorem State.record_engine (s : State) (r : Reading) : (s.record r).engine = s.engine := rfl
@[simp] theorem State.record_peers (s : State) (r : Reading) : (s.record r).peers = s.peers := rfl
@[simp] theorem State.record_mem (s : State) (r : Reading) : (s.record r).mem = s.mem := rfl
@[simp] theorem State.record_platform (s : State) (r : Reading) : (s.record r).platform = s.platform := rfl
@[simp] theorem State.record_script (s : State) (r : Reading) : (s.record r).script = s.script := rfl
@[simp] theorem State.record_schedule (s : State) (r : Reading) : (s.record r).schedule = s.schedule := rfl
@[simp] theorem State.record_reads (s : State) (r : Reading) : (s.record r).reads = s.reads ++ [r] := rfl
@[simp] theorem State.record_draws (s : State) (r : Reading) : (s.record r).draws = s.draws := rfl

@[simp] theorem State.record_engines (s : State) (r : Reading) : (s.record r).engines = s.engines := rfl

@[simp] theorem State.engines_length (s : State) : s.engines.length = s.peers.length + 1 := rfl

@[simp] theorem State.engineAt_zero (s : State) : s.engineAt 0 = some s.engine := rfl

@[simp] theorem State.engineAt_succ (s : State) (k : Nat) : s.engineAt (k + 1) = s.peers[k]? := rfl

/-- Replacing engine `k` in the state replaces it in the list of engines. -/
theorem State.setEngineAt_engines (s : State) (k : Nat) (e : Engine) :
    (s.setEngineAt k e).engines = s.engines.set k e := by cases k <;> rfl

/-- Replacing an engine leaves every other engine as it was. -/
theorem State.engineAt_setEngineAt (s : State) {k : Nat} (j : Nat) (e : Engine)
    (hk : k < s.engines.length) :
    (s.setEngineAt k e).engineAt j = if j = k then some e else s.engineAt j := by
  simp only [State.engineAt, State.setEngineAt_engines, List.getElem?_set]
  by_cases h : j = k
  · subst h
    simp only [if_true, if_pos hk]
  · have : ¬k = j := fun h' => h h'.symm
    simp [h, this]

/-- Bringing an engine into focus twice restores the state. -/
@[simp] theorem State.swap_swap (s : State) (k : Nat) : (s.swap k).swap k = s := by
  cases k with
  | zero => rfl
  | succ k =>
    unfold State.swap
    cases hk : s.peers[k]? with
    | none => simp [hk]
    | some e =>
      have hlt : k < s.peers.length := by
        rw [List.getElem?_eq_some_iff] at hk
        exact hk.1
      simp [hlt]

/-- The engine brought into focus is the one named. -/
theorem State.swap_engine {s : State} {k : Nat} {e : Engine} (h : s.engineAt k = some e) :
    (s.swap k).engine = e := by
  cases k with
  | zero => exact Option.some.inj h
  | succ k =>
    have h' : s.peers[k]? = some e := h
    simp [State.swap, h']

/-- The same engines are there whichever is in focus. -/
theorem State.mem_swap_engines {s : State} {k : Nat} {e : Engine} (he : e ∈ (s.swap k).engines) :
    e ∈ s.engines := by
  cases k with
  | zero => exact he
  | succ k =>
    unfold State.swap at he
    cases hk : s.peers[k]? with
    | none => simpa [hk] using he
    | some d =>
      have hd : d ∈ s.peers := List.mem_of_getElem? hk
      simp only [hk, State.engines, List.mem_cons] at he ⊢
      rcases he with rfl | he
      · exact .inr hd
      · rcases List.mem_or_eq_of_mem_set he with h | h
        · exact .inr h
        · exact .inl h

end Sys2Proof.Machine
end

