-- ==== Sys2Proof/Laws/Ops.lean ====
section
/-! SUPPORT. What each shared operation can do, said once, and the invariant each of them keeps. -/

namespace Sys2Proof.Machine

/-! ### STATUS -/

@[simp] theorem statusWord_accept : statusWord true false noError = 0x01#32 := by decide

@[simp] theorem statusWord_ok : statusWord false true noError = 0x02#32 := by decide

@[simp] theorem statusWord_error (c : ErrorCode) :
    statusWord false true (errorCode c) =
      match c with
      | .bufferTooSmall => 0x12#32
      | .formatError => 0x22#32
      | .accessFault => 0x32#32
      | .illegalCmd => 0x42#32 := by cases c <;> decide

/-- BUSY reads back from every STATUS word the engine writes. -/
@[simp] theorem statusBusy_statusWord (busy done : Bool) (err : BitVec 4) :
    statusBusy (statusWord busy done err) = busy := by
  revert busy done err
  decide

@[simp] theorem statusDone_statusWord (busy done : Bool) (err : BitVec 4) :
    statusDone (statusWord busy done err) = done := by
  revert busy done err
  decide

@[simp] theorem statusErr_statusWord (busy done : Bool) (err : BitVec 4) :
    statusErr (statusWord busy done err) = err := by
  revert busy done err
  decide

@[simp] theorem Engine.busy_accept (e : Engine) (w : Word) : (e.accept w).busy = true := by
  simp only [Engine.busy, Engine.accept_status, statusBusy_statusWord]

@[simp] theorem Engine.busy_complete (e : Engine) (err : BitVec 4) (r : DWord) :
    (e.complete err r).busy = false := by
  simp only [Engine.busy, Engine.complete_status, statusBusy_statusWord]

@[simp] theorem Engine.busy_afterReset (e : Engine) (d : Nat) : (e.afterReset d).busy = false := by
  simp only [Engine.busy, Engine.afterReset_status]
  decide

@[simp] theorem Engine.busy_storeReg (e : Engine) (r : Reg) (w : Word) :
    (e.storeReg r w).busy = e.busy := by simp [Engine.busy]

@[simp] theorem Engine.inFlight_complete (e : Engine) (err : BitVec 4) (r : DWord) :
    (e.complete err r).inFlight = none := rfl

@[simp] theorem Engine.inFlight_afterReset (e : Engine) (d : Nat) :
    (e.afterReset d).inFlight = none := rfl

/-! ### Registers -/

theorem getLsbD_hiLo (hi lo : Word) (i : Nat) :
    (hiLo hi lo).getLsbD i = if i < 32 then lo.getLsbD i else hi.getLsbD (i - 32) :=
  BitVec.getLsbD_append

@[simp] theorem hiWord_hiLo (hi lo : Word) : hiWord (hiLo hi lo) = hi := by
  refine BitVec.eq_of_getLsbD_eq fun i h => ?_
  simp [hiWord, getLsbD_hiLo, h]

@[simp] theorem loWord_hiLo (hi lo : Word) : loWord (hiLo hi lo) = lo := by
  refine BitVec.eq_of_getLsbD_eq fun i h => ?_
  simp [loWord, getLsbD_hiLo, h]

@[simp] theorem hiLo_hiWord_loWord (v : DWord) : hiLo (hiWord v) (loWord v) = v := by
  refine BitVec.eq_of_getLsbD_eq fun i h => ?_
  rw [getLsbD_hiLo]
  by_cases hi : i < 32
  · simp [loWord, hi]
  · simp [hiWord, hi, show i - 32 < 32 by omega, show 32 + (i - 32) = i by omega]

/-- A word of the window is found at its own offset. -/
@[simp] theorem Reg.ofOffset_offset (r : Reg) : Reg.ofOffset r.offset = some r := by
  cases r <;> rfl

/-- An offset past the window names no word (10_state R22, R34). -/
theorem Reg.ofOffset_eq_none {o : Nat} (h : 64 ≤ o) : Reg.ofOffset o = none := by
  unfold Reg.ofOffset
  iterate 16 rw [if_neg (by omega)]

/-- The word found at an offset has that offset. -/
theorem Reg.offset_of_ofOffset {o : Nat} {r : Reg} (h : Reg.ofOffset o = some r) : r.offset = o := by
  have small : ∀ o < 64, (Reg.ofOffset o).all (fun r => r.offset == o) = true := by decide
  by_cases ho : o < 64
  · simpa [h] using small o ho
  · rw [Reg.ofOffset_eq_none (by omega)] at h
    cases h

/-! ### Regions -/

theorem Region.ok_iff (r : Region) (memSize : Nat) :
    r.ok memSize = true ↔ r.len = 0 ∨ r.base + r.len ≤ memSize := by simp [Region.ok]

theorem Region.overlaps_eq_false_iff (r t : Region) :
    r.overlaps t = false ↔
      r.len = 0 ∨ t.len = 0 ∨ t.base + t.len ≤ r.base ∨ r.base + r.len ≤ t.base := by
  simp only [Region.overlaps, Bool.and_eq_false_iff, decide_eq_false_iff_not]
  omega

/-! ### The guarded run of a memory command -/

/-- Everything a memory command can do: succeed on an empty sequence, end with ACCESS_FAULT, be refused, or
pass every check and run. -/
theorem State.guarded_cases (s : State) (src dst : Region) (run : State → State) :
    (s.engine.count = 0#32 ∧ s.guarded src dst run = .next (s.completeOk 0)) ∨
    (s.engine.count ≠ 0#32 ∧
      ¬(src.ok s.platform.memSize = true ∧ dst.ok s.platform.memSize = true) ∧
      s.guarded src dst run = .next (s.raiseError .accessFault)) ∨
    (s.engine.count ≠ 0#32 ∧
      (src.ok s.platform.memSize = true ∧ dst.ok s.platform.memSize = true) ∧
      src.overlaps dst = true ∧ s.guarded src dst run = .refused .overlappingRegions) ∨
    (s.engine.count ≠ 0#32 ∧
      (src.ok s.platform.memSize = true ∧ dst.ok s.platform.memSize = true) ∧
      src.overlaps dst = false ∧
      (s.platform.touchesDevice src = true ∨ s.platform.touchesDevice dst = true) ∧
      s.guarded src dst run = .refused .deviceMemory) ∨
    (s.Admits src dst ∧ s.guarded src dst run = .next (run s.releaseCursors)) := by
  unfold State.guarded
  by_cases hc : s.engine.count = 0#32
  · simp [hc]
  by_cases hok : src.ok s.platform.memSize = true ∧ dst.ok s.platform.memSize = true
  · by_cases ho : src.overlaps dst = true
    · simp [hc, hok, ho]
    · have ho' : src.overlaps dst = false := by simpa using ho
      by_cases hd : s.platform.touchesDevice src = true ∨ s.platform.touchesDevice dst = true
      · have : (s.platform.touchesDevice src || s.platform.touchesDevice dst) = true := by simpa using hd
        simp [hc, hok, ho', hd, this]
      · have h1 : s.platform.touchesDevice src = false := by
          cases h : s.platform.touchesDevice src <;> simp_all
        have h2 : s.platform.touchesDevice dst = false := by
          cases h : s.platform.touchesDevice dst <;> simp_all
        simp [hc, hok, ho', h1, h2, State.Admits]
  · have : (src.ok s.platform.memSize && dst.ok s.platform.memSize) = false := by
      cases h1 : src.ok s.platform.memSize <;> cases h2 : dst.ok s.platform.memSize <;> simp_all
    exact .inr (.inl ⟨hc, hok, by rw [if_neg hc, if_pos this]⟩)

/-- A memory command whose checks pass runs. -/
theorem State.guarded_of_admits {s : State} {src dst : Region} (h : s.Admits src dst)
    (run : State → State) : s.guarded src dst run = .next (run s.releaseCursors) := by
  obtain ⟨hc, h1, h2, ho, d1, d2⟩ := h
  simp [State.guarded, hc, h1, h2, ho, d1, d2]

/-- What storing an encoded sequence can do. -/
theorem State.storeEncoded_cases (s : State) (vals : List Word) :
    (s.engine.dstLen.toNat < maxCompressedBytes s.engine.count.toNat ∧
      s.storeEncoded vals = s.raiseError .bufferTooSmall) ∨
    (maxCompressedBytes s.engine.count.toNat ≤ s.engine.dstLen.toNat ∧
      s.storeEncoded vals =
        State.completeOk
          { s with mem := s.mem.writeBytes s.engine.dstAddr.toNat (encodeStream vals) }
          (encodeStream vals).length) := by
  unfold State.storeEncoded
  split
  · exact .inl ⟨by assumption, rfl⟩
  · exact .inr ⟨by omega, rfl⟩

/-- What storing a decoded sequence can do. -/
theorem State.storeDecoded_cases (s : State) (d : Option (List Word × Nat)) :
    (d = none ∧ s.storeDecoded d = s.raiseError .formatError) ∨
    (∃ vals consumed, d = some (vals, consumed) ∧
      s.storeDecoded d =
        State.completeOk { s with mem := s.mem.writeInts s.engine.dstAddr.toNat vals } consumed) := by
  cases d with
  | none => exact .inl ⟨rfl, rfl⟩
  | some r => exact .inr ⟨r.1, r.2, rfl, rfl⟩

/-! ### The invariant of one engine -/

theorem Engine.powerOn_inv : Engine.powerOn.Inv := by decide

theorem Engine.accept_inv (e : Engine) (w : Word) : (e.accept w).Inv := by
  refine ⟨by simp [Engine.StatusLegal], by simp, by simp, by simp⟩

theorem Engine.completeOk_inv (e : Engine) {n : Nat} (h : n < 2 ^ 35) :
    (e.complete noError (BitVec.ofNat 64 n)).Inv := by
  refine ⟨by simp [Engine.StatusLegal], by simp, ?_, by simp⟩
  simp only [Engine.complete_result, BitVec.toNat_ofNat]
  omega

theorem Engine.raiseError_inv (e : Engine) (c : ErrorCode) :
    (e.complete (errorCode c) 0#64).Inv := by
  refine ⟨?_, by simp, by simp, by simp⟩
  cases c <;> simp [Engine.StatusLegal]

theorem Engine.afterReset_inv (e : Engine) (d : Nat) : (e.afterReset d).Inv := by
  refine ⟨by simp [Engine.StatusLegal], by simp, by simp, by simp⟩

theorem Engine.storeReg_inv {e : Engine} (h : e.Inv) (r : Reg) (w : Word) : (e.storeReg r w).Inv := by
  obtain ⟨h1, h2, h3, h4⟩ := h
  exact ⟨by simpa [Engine.StatusLegal] using h1, by simpa using h2, by simpa using h3,
    by simpa using h4⟩

/-- PREV and the cursors take no part in the invariant. -/
theorem Engine.hidden_inv {e : Engine} (h : e.Inv) (p : Word) (c : Cursors) :
    ({ e with prev := p, cursors := c } : Engine).Inv := h

/-- The state with another engine in focus meets the invariant too. -/
theorem State.swap_inv {s : State} (h : s.Inv) (k : Nat) : (s.swap k).Inv := by
  obtain ⟨h1, h2, h3, h4⟩ := h
  exact ⟨by simpa using h1, by simpa using h2, by simpa using h3,
    fun e he => h4 e (State.mem_swap_engines he)⟩

/-- Replacing an engine by one that meets its invariant keeps the machine's. -/
theorem State.setEngineAt_inv {s : State} (h : s.Inv) {e : Engine} (he : e.Inv) (k : Nat) :
    (s.setEngineAt k e).Inv := by
  obtain ⟨h1, h2, h3, h4⟩ := h
  refine ⟨by simpa using h1, by simpa using h2, by simpa using h3, fun d hd => ?_⟩
  rw [State.setEngineAt_engines] at hd
  rcases List.mem_or_eq_of_mem_set hd with h | rfl
  · exact h4 d h
  · exact he

/-- A memory that keeps the form, an engine that keeps its invariant: the machine keeps its own. -/
theorem State.update_inv {s t : State} (h : s.Inv) (hp : t.platform = s.platform)
    (hpeers : t.peers = s.peers) (hwf : t.mem.wf) (hb : t.mem.below s.platform.memSize)
    (he : t.engine.Inv) : t.Inv := by
  obtain ⟨h1, -, -, h4⟩ := h
  refine ⟨hp ▸ h1, hwf, hp ▸ hb, fun e hmem => ?_⟩
  rcases List.mem_cons.1 hmem with rfl | hmem
  · exact he
  · exact h4 e (List.mem_cons_of_mem _ (hpeers ▸ hmem))

end Sys2Proof.Machine
end

