-- ==== Sys2Proof/Laws/PerInstr.lean ====
section
/-! SUPPORT. Statements about each instruction as syntax, one lemma per constructor. -/

namespace Sys2Proof.Laws.Fields

/-- The instruction is well formed, its command word has legal fields, RES 0 and OP one of the five
(30_encoding R90), and the word is its OP value. -/
def Statement (i : Instr) : Prop :=
  i.WellFormed = true ∧ (cmdFields (encode i)).WellFormed ∧ (encode i).toNat = (encodeOp i).toNat

theorem capacity : Statement .capacity := ⟨rfl, by decide, by decide⟩

theorem encode : Statement .encode := ⟨rfl, by decide, by decide⟩

theorem decode : Statement .decode := ⟨rfl, by decide, by decide⟩

theorem encodeDelta : Statement .encodeDelta := ⟨rfl, by decide, by decide⟩

theorem decodeDelta : Statement .decodeDelta := ⟨rfl, by decide, by decide⟩

end Sys2Proof.Laws.Fields
end

