-- ==== Sys2Proof/Laws/Step.lean ====
section
/-! SUPPORT. What a completion, a host action and a step can do, said once, and the invariant each keeps. -/

namespace Sys2Proof.Machine

/-! ### The commands past the shared checks -/

theorem exec_encode_of_admits {s : State} (h : s.Admits s.engine.encodeSource s.engine.encodeDest) :
    exec .encode s = .next (s.releaseCursors.storeEncoded s.releaseCursors.sourceInts) :=
  State.guarded_of_admits h fun t => t.storeEncoded t.sourceInts

theorem exec_decode_of_admits {s : State} (h : s.Admits s.engine.decodeSource s.engine.decodeDest) :
    exec .decode s = .next (s.releaseCursors.storeDecoded s.releaseCursors.sourceDecoded) :=
  State.guarded_of_admits h fun t => t.storeDecoded t.sourceDecoded

theorem exec_encodeDelta_of_admits {s : State}
    (h : s.Admits s.engine.encodeSource s.engine.encodeDest) :
    exec .encodeDelta s =
      .next (s.releaseCursors.storeEncoded
        (deltaTransform s.engine.seed s.releaseCursors.sourceInts)).releasePrev :=
  State.guarded_of_admits h fun t =>
    (t.storeEncoded (deltaTransform t.engine.seed t.sourceInts)).releasePrev

theorem exec_decodeDelta_of_admits {s : State}
    (h : s.Admits s.engine.decodeSource s.engine.decodeDest) :
    exec .decodeDelta s =
      .next (s.releaseCursors.storeDecoded
        (s.releaseCursors.sourceDecoded.map fun r => (deltaAccumulate s.engine.seed r.1, r.2))).releasePrev :=
  State.guarded_of_admits h fun t =>
    (t.storeDecoded (t.sourceDecoded.map fun r : List Word × Nat =>
      (deltaAccumulate t.engine.seed r.1, r.2))).releasePrev

/-! ### Completions -/

theorem State.releaseCursors_inv {s : State} (h : s.Inv) : s.releaseCursors.Inv :=
  State.update_inv h rfl rfl h.2.1 h.2.2.1 (Engine.hidden_inv (h.2.2.2 s.engine (by simp [State.engines])) _ _)

theorem State.releasePrev_inv {s : State} (h : s.Inv) : s.releasePrev.Inv :=
  State.update_inv h rfl rfl h.2.1 h.2.2.1 (Engine.hidden_inv (h.2.2.2 s.engine (by simp [State.engines])) _ _)

theorem State.raiseError_inv {s : State} (h : s.Inv) (c : ErrorCode) : (s.raiseError c).Inv :=
  State.update_inv h rfl rfl h.2.1 h.2.2.1 (Engine.raiseError_inv s.engine c)

theorem State.completeOk_inv {s : State} (h : s.Inv) {n : Nat} (hn : n < 2 ^ 35) :
    (s.completeOk n).Inv :=
  State.update_inv h rfl rfl h.2.1 h.2.2.1 (Engine.completeOk_inv s.engine hn)

/-- An encoded sequence of COUNT values stored in a region that is in memory keeps the invariant. -/
theorem State.storeEncoded_inv {s : State} (h : s.Inv) {vals : List Word}
    (hlen : vals.length = s.engine.count.toNat)
    (hok : s.engine.encodeDest.ok s.platform.memSize = true) : (s.storeEncoded vals).Inv := by
  have hout := length_encodeStream_le vals
  have hcap := maxCompressedBytes_lt s.engine.count.isLt
  have hok := (Region.ok_iff _ _).1 hok
  simp only [Engine.encodeDest] at hok
  rw [hlen] at hout
  rcases State.storeEncoded_cases s vals with ⟨-, he⟩ | ⟨hfit, he⟩
  · exact he ▸ State.raiseError_inv h _
  · rw [he]
    refine State.update_inv h rfl rfl ?_ ?_ (Engine.completeOk_inv s.engine (by omega))
    · exact Memory.writeBytes_wf _ h.2.1 _
    · exact Memory.writeBytes_below _ h.2.2.1 (by omega)

/-- A decoded sequence of COUNT values stored in a region that is in memory keeps the invariant. -/
theorem State.storeDecoded_inv {s : State} (h : s.Inv) {d : Option (List Word × Nat)}
    (hd : ∀ vals q, d = some (vals, q) →
      vals.length = s.engine.count.toNat ∧ q ≤ maxCompressedBytes s.engine.count.toNat)
    (hok : s.engine.decodeDest.ok s.platform.memSize = true) : (s.storeDecoded d).Inv := by
  have hcap := maxCompressedBytes_lt s.engine.count.isLt
  have hok := (Region.ok_iff _ _).1 hok
  simp only [Engine.decodeDest, Engine.arrayLen] at hok
  rcases State.storeDecoded_cases s d with ⟨-, he⟩ | ⟨vals, q, rfl, he⟩
  · exact he ▸ State.raiseError_inv h _
  · obtain ⟨hlen, hq⟩ := hd vals q rfl
    rw [he]
    refine State.update_inv h rfl rfl ?_ ?_ (Engine.completeOk_inv s.engine (by omega))
    · exact Memory.writeBytes_wf _ h.2.1 _
    · exact Memory.writeBytes_below _ h.2.2.1 (by rw [length_intBytes, hlen]; omega)

/-- A guarded command keeps the invariant if its run does on the states that pass the checks. -/
theorem State.guarded_inv {s t : State} (h : s.Inv) {src dst : Region} {run : State → State}
    (hrun : s.Admits src dst → (run s.releaseCursors).Inv) (ht : s.guarded src dst run = .next t) :
    t.Inv := by
  rcases State.guarded_cases s src dst run with
    ⟨-, he⟩ | ⟨-, -, he⟩ | ⟨-, -, -, he⟩ | ⟨-, -, -, -, he⟩ | ⟨ha, he⟩ <;> rw [he] at ht <;> cases ht
  · exact State.completeOk_inv h (by decide)
  · exact State.raiseError_inv h _
  · exact hrun ha

theorem State.sourceDecoded_spec {s : State} {vals : List Word} {q : Nat}
    (h : s.sourceDecoded = some (vals, q)) :
    vals.length = s.engine.count.toNat ∧ q ≤ maxCompressedBytes s.engine.count.toNat :=
  decodeStream_spec h

theorem execCapacity_inv {s t : State} (h : s.Inv) (ht : execCapacity s = .next t) : t.Inv := by
  cases ht
  exact State.completeOk_inv h (maxCompressedBytes_lt s.engine.count.isLt)

theorem execEncode_inv {s t : State} (h : s.Inv) (ht : execEncode s = .next t) : t.Inv :=
  State.guarded_inv h
    (fun ha => State.storeEncoded_inv (State.releaseCursors_inv h) (by simp [State.sourceInts]) ha.2.2.1)
    ht

theorem execDecode_inv {s t : State} (h : s.Inv) (ht : execDecode s = .next t) : t.Inv :=
  State.guarded_inv h
    (fun ha => State.storeDecoded_inv (State.releaseCursors_inv h)
      (fun _ _ hd => State.sourceDecoded_spec hd) ha.2.2.1) ht

theorem execEncodeDelta_inv {s t : State} (h : s.Inv) (ht : execEncodeDelta s = .next t) : t.Inv := by
  refine State.guarded_inv h (fun ha => ?_) ht
  have := State.storeEncoded_inv (State.releaseCursors_inv h)
    (vals := deltaTransform s.engine.seed s.releaseCursors.sourceInts) (by simp [State.sourceInts])
    ha.2.2.1
  exact State.releasePrev_inv this

theorem execDecodeDelta_inv {s t : State} (h : s.Inv) (ht : execDecodeDelta s = .next t) : t.Inv := by
  refine State.guarded_inv h (fun ha => ?_) ht
  have := State.storeDecoded_inv (State.releaseCursors_inv h)
    (d := s.releaseCursors.sourceDecoded.map fun r => (deltaAccumulate s.engine.seed r.1, r.2))
    (fun vals q hd => by
      obtain ⟨r, hr, heq⟩ := Option.map_eq_some_iff.1 hd
      cases heq
      simpa using State.sourceDecoded_spec hr)
    ha.2.2.1
  exact State.releasePrev_inv this

/-- The completion of a legal command keeps the invariant. -/
theorem exec_inv {i : Instr} {s t : State} (h : s.Inv) (ht : exec i s = .next t) : t.Inv := by
  cases i with
  | capacity => exact execCapacity_inv h ht
  | encode => exact execEncode_inv h ht
  | decode => exact execDecode_inv h ht
  | encodeDelta => exact execEncodeDelta_inv h ht
  | decodeDelta => exact execDecodeDelta_inv h ht

/-- What a completion can do. -/
theorem completion_cases {s t : State} (h : completion s = .next t) :
    (s.engine.pending = none ∧ t = s) ∨
    (s.engine.pending = some .illegal ∧ t = s.completeIllegal) ∨
    (∃ i, s.engine.pending = some (.command i) ∧ exec i s = .next t) := by
  unfold completion at h
  split at h
  · cases h
    exact .inl ⟨by assumption, rfl⟩
  · cases h
    exact .inr (.inl ⟨by assumption, rfl⟩)
  · exact .inr (.inr ⟨_, by assumption, h⟩)

theorem completion_inv {s t : State} (h : s.Inv) (ht : completion s = .next t) : t.Inv := by
  rcases completion_cases ht with ⟨-, rfl⟩ | ⟨-, rfl⟩ | ⟨i, -, he⟩
  · exact h
  · exact State.raiseError_inv h _
  · exact exec_inv h he

/-- What an engine's turn can do. -/
theorem engineTurn_cases {k : Nat} {s t : State} (h : engineTurn k s = .next t) :
    ∃ u, completion (s.swap k) = .next u ∧ t = u.swap k := by
  unfold engineTurn at h
  split at h
  · cases h
    exact ⟨_, by assumption, rfl⟩
  · cases h
  · cases h

theorem engineTurn_inv {k : Nat} {s t : State} (h : s.Inv) (ht : engineTurn k s = .next t) : t.Inv := by
  obtain ⟨u, hu, rfl⟩ := engineTurn_cases ht
  exact State.swap_inv (completion_inv (State.swap_inv h k) hu) k

/-! ### Host actions -/

/-- What a host write to the window can do. -/
theorem State.hostWrite_cases {s t : State} {addr : Nat} {w : Word}
    (h : s.hostWrite addr w = .next t) :
    t = s ∨
    (∃ k r e, s.portTarget addr = some (k, r) ∧ s.engineAt k = some e ∧ e.busy = false ∧
      ((r = .cmd ∧ s.engineConflict k (e.accept w) = false ∧ t = s.setEngineAt k (e.accept w)) ∨
       (r ≠ .cmd ∧ t = s.setEngineAt k (e.storeReg r w)))) := by
  unfold State.hostWrite at h
  split at h
  · cases h
    exact .inl rfl
  next k r hp =>
    unfold State.writePort at h
    split at h
    · cases h
      exact .inl rfl
    next e he =>
      split at h
      · cases h
        exact .inl rfl
      next hb =>
        refine .inr ⟨k, r, e, hp, he, by simpa using hb, ?_⟩
        split at h
        next hr =>
          unfold State.acceptAt at h
          split at h
          · cases h
          next hc =>
            cases h
            exact .inl ⟨hr, by simpa using hc, rfl⟩
        next hr =>
          cases h
          exact .inr ⟨hr, rfl⟩

/-- What a host read of the window can do: it adds one reading and may draw one free value. -/
theorem State.hostRead_cases (s : State) (addr : Nat) :
    s.hostRead addr = s ∨
    (s.portTarget addr = none ∧ s.hostRead addr =
      State.record { s with draws := s.draws + 1 } (.word (Config.freeWord s.draws))) ∨
    (∃ k r e, s.portTarget addr = some (k, r) ∧ s.engineAt k = some e ∧
      s.hostRead addr = s.record (.word (e.readReg r))) := by
  unfold State.hostRead
  split
  · exact .inr (.inl ⟨by assumption, rfl⟩)
  next k r hp =>
    split
    · exact .inl rfl
    next e he => exact .inr (.inr ⟨k, r, e, hp, he, rfl⟩)

/-- What a host write to `M` can do. -/
theorem State.hostMemWrite_cases {s t : State} {addr : Nat} {bytes : List Byte}
    (h : s.hostMemWrite addr bytes = .next t) :
    Region.ok ⟨addr, bytes.length⟩ s.platform.memSize = true ∧
      s.writeHazard ⟨addr, bytes.length⟩ = false ∧
      t = { s with mem := s.mem.writeBytes addr bytes } := by
  unfold State.hostMemWrite at h
  split at h
  · cases h
  next h1 =>
    split at h
    · cases h
    · split at h
      · cases h
      next h3 =>
        cases h
        exact ⟨by simpa using h1, by simpa using h3, rfl⟩

/-- What a host read of `M` can do. -/
theorem State.hostMemRead_cases {s t : State} {addr n : Nat} (h : s.hostMemRead addr n = .next t) :
    t = s.record (.bytes (s.mem.readBytes addr n)) := by
  unfold State.hostMemRead at h
  split at h
  · cases h
  · split at h
    · cases h
    · split at h
      · cases h
      · cases h
        rfl

/-- What a RESET can do. -/
theorem State.hostReset_cases {s t : State} {k : Nat} (h : s.hostReset k = .next t) :
    ∃ e, s.engineAt k = some e ∧
      t = State.setEngineAt { s with mem := s.memAfterReset e, draws := s.draws + 1 } k
        (e.afterReset s.draws) := by
  unfold State.hostReset at h
  split at h
  · cases h
  next e he =>
    cases h
    exact ⟨e, he, rfl⟩

/-- What one turn of POLL can do. -/
theorem State.hostPoll_cases {s t : State} {k : Nat} (h : s.hostPoll k = .next t) :
    ∃ e, s.engineAt k = some e ∧
      t = State.record { s with script := if e.busy = true then .poll k :: s.script else s.script }
        (.word e.status) := by
  unfold State.hostPoll at h
  split at h
  · cases h
  next e he =>
    cases h
    exact ⟨e, he, rfl⟩

theorem State.memAfterReset_wf {s : State} (h : s.mem.wf) (e : Engine) : (s.memAfterReset e).wf := by
  unfold State.memAfterReset
  split
  · exact h
  · exact Memory.fill_wf _ _ h _

theorem State.memAfterReset_below {s : State} (h : s.mem.below s.platform.memSize) (e : Engine) :
    (s.memAfterReset e).below s.platform.memSize := by
  unfold State.memAfterReset
  split
  · exact h
  · exact Memory.fill_below _ _ h (by simp only [Region.lengthIn]; omega)

theorem State.mem_engines_of_engineAt {s : State} {k : Nat} {e : Engine} (h : s.engineAt k = some e) :
    e ∈ s.engines := List.mem_of_getElem? h

/-- A host action that goes on keeps the invariant. -/
theorem State.hostAct_inv {s t : State} (h : s.Inv) {a : HostAction} (ht : s.hostAct a = .next t) :
    t.Inv := by
  cases a with
  | wr word w =>
    rcases State.hostWrite_cases ht with rfl | ⟨k, r, e, -, he, -, ⟨-, -, rfl⟩ | ⟨-, rfl⟩⟩
    · exact h
    · exact State.setEngineAt_inv h (Engine.accept_inv e w) k
    · exact State.setEngineAt_inv h
        (Engine.storeReg_inv (h.2.2.2 e (State.mem_engines_of_engineAt he)) r w) k
  | rd word =>
    cases ht
    rcases State.hostRead_cases s (4 * word) with he | ⟨-, he⟩ | ⟨k, r, e, -, -, he⟩ <;> rw [he] <;> exact h
  | mw addr bytes =>
    obtain ⟨hok, -, rfl⟩ := State.hostMemWrite_cases ht
    have hok := (Region.ok_iff _ _).1 hok
    exact ⟨h.1, Memory.writeBytes_wf _ h.2.1 _, Memory.writeBytes_below _ h.2.2.1 hok, h.2.2.2⟩
  | mr addr n =>
    cases State.hostMemRead_cases ht
    exact h
  | reset k =>
    obtain ⟨e, -, rfl⟩ := State.hostReset_cases ht
    refine State.setEngineAt_inv ?_ (Engine.afterReset_inv e s.draws) k
    exact ⟨h.1, State.memAfterReset_wf h.2.1 e, State.memAfterReset_below h.2.2.1 e, h.2.2.2⟩
  | poll k =>
    obtain ⟨e, -, rfl⟩ := State.hostPoll_cases ht
    exact h

/-- What a host turn can do. -/
theorem State.hostTurn_cases {s t : State} (h : s.hostTurn = .next t) :
    (s.script = [] ∧ t = s) ∨
    (∃ a rest, s.script = a :: rest ∧ State.hostAct { s with script := rest } a = .next t) := by
  unfold State.hostTurn at h
  split at h
  · cases h
    exact .inl ⟨by assumption, rfl⟩
  · exact .inr ⟨_, _, by assumption, h⟩

/-! ### Steps -/

/-- What a step can do. -/
theorem step_cases {s t : State} (h : step s = .next t) :
    (s.nextAgent = none ∧ t = s) ∨
    (∃ rest, s.nextAgent = some (.host, rest) ∧ State.hostTurn { s with schedule := rest } = .next t) ∨
    (∃ k rest, s.nextAgent = some (.engine k, rest) ∧
      engineTurn k { s with schedule := rest } = .next t) := by
  unfold step at h
  split at h
  · cases h
    exact .inl ⟨by assumption, rfl⟩
  · exact .inr (.inl ⟨_, by assumption, h⟩)
  · exact .inr (.inr ⟨_, _, by assumption, h⟩)

/-- The agent the default names has a step. -/
theorem State.enabled_defaultAgent {s : State} {a : Agent} (h : s.defaultAgent = some a) :
    s.enabled a = true := by
  unfold State.defaultAgent at h
  split at h
  next k hk =>
    cases h
    rw [List.findIdx?_eq_some_iff_getElem] at hk
    obtain ⟨hlt, hp, -⟩ := hk
    simp only [State.enabled, State.engineAt, List.getElem?_eq_getElem hlt]
    exact hp
  · split at h
    · cases h
    next hs =>
      cases h
      simpa [State.enabled] using hs

/-- The agent that moves next has a step, and a schedule that is not used up gets shorter. -/
theorem State.nextAgent_spec {s : State} {a : Agent} {rest : List Agent}
    (h : s.nextAgent = some (a, rest)) :
    s.enabled a = true ∧ (rest.length < s.schedule.length ∨ (rest = [] ∧ s.defaultAgent = some a)) := by
  unfold State.nextAgent at h
  split at h
  next b bs hd =>
    cases h
    refine ⟨?_, .inl ?_⟩
    · have := List.head?_dropWhile_not (fun a => !s.enabled a) s.schedule
      rw [hd] at this
      simpa using this
    · have := (List.dropWhile_suffix (fun a => !s.enabled a) (l := s.schedule)).length_le
      rw [hd, List.length_cons] at this
      omega
  next hd =>
    obtain ⟨b, hb, heq⟩ := Option.map_eq_some_iff.1 h
    cases heq
    exact ⟨State.enabled_defaultAgent hb, .inr ⟨rfl, hb⟩⟩

/-! ### Runs -/

theorem run_next {n : Nat} {s t : State} (h : step s = .next t) :
    Sys2Proof.core.run (n + 1) s = Sys2Proof.core.run n t := by
  have h' : Host.Core.step Sys2Proof.core s = .next t := h
  exact (Host.Core.run.eq_2 Sys2Proof.core s n).trans (by rw [h'])

theorem run_fault {n : Nat} {s : State} {f : Fault} (h : step s = .fault f) :
    Sys2Proof.core.run (n + 1) s = .fault f := by
  have h' : Host.Core.step Sys2Proof.core s = .fault f := h
  exact (Host.Core.run.eq_2 Sys2Proof.core s n).trans (by rw [h'])

theorem run_refused {n : Nat} {s : State} {r : Refusal} (h : step s = .refused r) :
    Sys2Proof.core.run (n + 1) s = .refused r := by
  have h' : Host.Core.step Sys2Proof.core s = .refused r := h
  exact (Host.Core.run.eq_2 Sys2Proof.core s n).trans (by rw [h'])

end Sys2Proof.Machine
end

