-- ==== Sys2Proof/Tests/Slice0.lean ====
section
/-! SUPPORT. The model's own tests, with expected results from 95_test_vectors, and a witness for the
hypotheses of each obligation that has some. -/

namespace Sys2Proof.Tests

open Sys2Proof.Machine

/-! ### Well-formedness: one ill-formed term for each check -/

/-- RES is not 0 (V8 row 6: word 0x12). -/
theorem test_wf_reserved_bits : ¬(CmdFields.mk 2#4 1#28).WellFormed := by decide

/-- OP is 0 (V8 row 4). -/
theorem test_wf_op_zero : ¬(CmdFields.mk 0#4 0#28).WellFormed := by decide

/-- OP is 6 (V8 row 5). -/
theorem test_wf_op_six : ¬(CmdFields.mk 6#4 0#28).WellFormed := by decide

theorem test_wf_legal : (CmdFields.mk 5#4 0#28).WellFormed := by decide

/-- `1 <= MEM_SIZE <= 2^64` (00_scope R7). -/
theorem test_wf_memSize :
    ¬(Platform.mk 0 []).WellFormed ∧ ¬(Platform.mk (2 ^ 64 + 1) []).WellFormed ∧
      (Platform.mk (2 ^ 64) []).WellFormed := by decide

theorem test_wf_instructions :
    Instr.capacity.WellFormed ∧ Instr.encode.WellFormed ∧ Instr.decode.WellFormed ∧
      Instr.encodeDelta.WellFormed ∧ Instr.decodeDelta.WellFormed := by decide

/-- Two entries out of order, and an entry that is 0. -/
theorem test_wf_memory :
    ¬Memory.wf [(2, 1#8), (1, 1#8)] ∧ ¬Memory.wf [(1, 0#8)] ∧ Memory.wf [(1, 1#8), (2, 1#8)] := by decide

/-! ### Decoding: words written out from 30_encoding R90, RES in bits 31:4 and OP in bits 3:0 -/

theorem test_decode_capacity :
    decodeTableWord 32 0b00000000000000000000000000000001 = some .capacity := by decide

theorem test_decode_encode :
    decodeTableWord 32 0b00000000000000000000000000000010 = some .encode := by decide

theorem test_decode_decode :
    decodeTableWord 32 0b00000000000000000000000000000011 = some .decode := by decide

theorem test_decode_encodeDelta :
    decodeTableWord 32 0b00000000000000000000000000000100 = some .encodeDelta := by decide

theorem test_decode_decodeDelta :
    decodeTableWord 32 0b00000000000000000000000000000101 = some .decodeDelta := by decide

/-- V8 rows 4 to 7. -/
theorem test_decode_rejects :
    decode 0x00000000#32 = .error .undefinedOp ∧ decode 0x00000006#32 = .error .undefinedOp ∧
      decode 0x00000012#32 = .error .reservedBitsSet ∧
      decode 0x80000003#32 = .error .reservedBitsSet := ⟨rfl, rfl, rfl, rfl⟩

/-! ### The datapath: tables V1, V2, V3, V4 and V7 -/

theorem test_lengthCode :
    [0#32, 0xFF#32, 0x100#32, 0xFFFF#32, 0x10000#32, 0xFFFFFF#32, 0x1000000#32, 0xFFFFFFFF#32].map
      lengthCode = [0#2, 0#2, 1#2, 1#2, 2#2, 2#2, 3#2, 3#2] := by decide

theorem test_packControlByte :
    packControlByte 0#2 1#2 2#2 3#2 = 0xE4#8 ∧ packControlByte 3#2 2#2 1#2 0#2 = 0x1B#8 := by decide

theorem test_unpackControlByte : unpackControlByte 0x2F#8 = [3#2, 3#2, 2#2, 0#2] := by decide

theorem test_writeValue : writeValue 0x12345678#32 3#2 = [0x78#8, 0x56#8, 0x34#8, 0x12#8] := by decide

theorem test_readValue :
    readValue [0xAA#8, 0x05#8, 0x00#8] 1 1#2 = some (5#32, 2) ∧
      readValue [0xAA#8, 0x05#8, 0x00#8] 1 2#2 = none := by decide

theorem test_encodeStream :
    encodeStream [256#32, 65536#32, 16777216#32] =
      [0x39#8, 0x00#8, 0x01#8, 0x00#8, 0x00#8, 0x01#8, 0x00#8, 0x00#8, 0x00#8, 0x01#8] := by decide

theorem test_decodeStream_padding :
    decodeStream [0xF4#8, 0x01#8, 0x02#8, 0x03#8] 2 = some ([1#32, 770#32], 4) := by decide

theorem test_deltaTransform :
    deltaTransform 0#32 [10#32, 5#32, 3#32] = [10#32, 0xFFFFFFFB#32, 0xFFFFFFFE#32] := by decide

/-! ### One step of each command, from V8 and the programs P1 to P5 -/

/-- A machine with `MEM_SIZE = 0x1000` and one engine. -/
def machine (e : Engine) (m : Memory) : State :=
  { State.reset with engine := e, mem := m, platform := ⟨0x1000, []⟩ }

/-- An engine with its operands set. -/
def operands (count : Word) (srcAddr srcLen dstAddr dstLen : DWord) : Engine :=
  { Engine.powerOn with
    count := count, srcAddr := srcAddr, srcLen := srcLen, dstAddr := dstAddr, dstLen := dstLen }

/-- STATUS, RESULT and `n` bytes of `M` from `a` after a step. -/
def after (o : Host.Outcome State Fault Refusal) (a n : Nat) : Option (Word × DWord × List Byte) :=
  match o with
  | .next t => some (t.engine.status, t.engine.result, t.mem.readBytes a n)
  | .fault _ => none
  | .refused _ => none

/-- The integer array of example W1 at 0x100. -/
def w1Ints : Memory :=
  Memory.writeInts [] 0x100 [1#32, 2#32, 44#32, 5123#32, 43#32, 534#32]

/-- The encoded buffer of example W1 at 0x200. -/
def w1Buffer : Memory :=
  Memory.writeBytes [] 0x200
    [0x40#8, 0x04#8, 0x01#8, 0x02#8, 0x2C#8, 0x03#8, 0x14#8, 0x2B#8, 0x16#8, 0x02#8]

/-- V8 row 2. -/
theorem test_capacity_needs_high_word :
    after (exec .capacity (machine (operands 0xFFFFFFFF#32 0 0 0 0) [])) 0 0 =
      some (0x02#32, 0x43FFFFFFC#64, []) := by decide

/-- The state in which program P1 completes. -/
def p1 : State := machine (operands 6#32 0x100 0 0x200 26) w1Ints

theorem test_encode_p1 :
    after (exec .encode p1) 0x200 11 = some (0x02#32, 10#64,
      [0x40#8, 0x04#8, 0x01#8, 0x02#8, 0x2C#8, 0x03#8, 0x14#8, 0x2B#8, 0x16#8, 0x02#8, 0x00#8]) := by
  decide

/-- V8 row 14, one byte below the capacity. -/
theorem test_encode_bufferTooSmall :
    after (exec .encode (machine (operands 4#32 0x100 0 0x200 16) [])) 0 0 =
      some (0x12#32, 0#64, []) := by decide

/-- The state in which program P2 completes its first command. -/
def p2 : State := machine (operands 6#32 0x200 10 0x300 26) w1Buffer

theorem test_decode_p2 :
    after (exec .decode p2) 0x300 24 = some (0x02#32, 10#64,
      [0x01#8, 0#8, 0#8, 0#8, 0x02#8, 0#8, 0#8, 0#8, 0x2C#8, 0#8, 0#8, 0#8, 0x03#8, 0x14#8, 0#8, 0#8,
       0x2B#8, 0#8, 0#8, 0#8, 0x16#8, 0x02#8, 0#8, 0#8]) := by decide

/-- V8 row 17: the last byte is missing. -/
def p2Short : State := machine (operands 6#32 0x200 9 0x300 26) w1Buffer

theorem test_decode_formatError :
    after (exec .decode p2Short) 0x300 4 = some (0x22#32, 0#64, [0#8, 0#8, 0#8, 0#8]) := by decide

/-- Program P3's encoding command. -/
def p3 : State := machine (operands 3#32 0x100 0 0x200 13) (Memory.writeInts [] 0x100 [10#32, 5#32, 3#32])

/-- Program P3's second decoding command; V8 row 20. -/
def p3Decode : State :=
  machine (operands 3#32 0x200 10 0x300 13)
    (Memory.writeBytes [] 0x200
      [0x3C#8, 0x0A#8, 0xFB#8, 0xFF#8, 0xFF#8, 0xFF#8, 0xFE#8, 0xFF#8, 0xFF#8, 0xFF#8])

theorem test_encodeDelta_p3 :
    after (exec .encodeDelta p3) 0x200 10 = some (0x02#32, 10#64,
      [0x3C#8, 0x0A#8, 0xFB#8, 0xFF#8, 0xFF#8, 0xFF#8, 0xFE#8, 0xFF#8, 0xFF#8, 0xFF#8]) := by decide

/-- V8 row 16: DST_LEN is the actual size, the capacity is 13. -/
theorem test_encodeDelta_bufferTooSmall :
    after (exec .encodeDelta { p3 with engine := { p3.engine with dstLen := 12 } }) 0 0 =
      some (0x12#32, 0#64, []) := by decide

theorem test_decodeDelta_p3 :
    after (exec .decodeDelta p3Decode) 0x300 12 = some (0x02#32, 10#64,
      [0x0A#8, 0#8, 0#8, 0#8, 0x05#8, 0#8, 0#8, 0#8, 0x03#8, 0#8, 0#8, 0#8]) := by decide

/-- V8 row 10: the source ends one byte past MEM_SIZE; and row 11: it ends exactly there. -/
theorem test_accessFault_boundary :
    after (exec .encode (machine (operands 1#32 0xFFD 0 0x200 5) [])) 0 0 = some (0x32#32, 0#64, []) ∧
      after (exec .encode (machine (operands 1#32 0xFFC 0 0x200 5) [(0xFFC, 7#8)])) 0x200 2 =
        some (0x02#32, 2#64, [0x00#8, 0x07#8]) := by decide

/-- Program P5 step 12: the exact sum does not wrap. -/
theorem test_accessFault_no_wrap :
    after (exec .decode (machine (operands 1#32 0xFFFFFFFFFFFFFFF0 2 0 0) [])) 0 0 =
      some (0x32#32, 0#64, []) := by decide

/-- V8 row 6: the illegal word 0x12, right after reset. -/
theorem test_step_illegal : after (step (State.reset.withFetchWord 32 0x12)) 0 0 =
    some (0x42#32, 0#64, []) := by decide

/-- V8 row 8: ENCODE as the first command after reset, with COUNT = 0. -/
theorem test_step_encode_after_reset : after (step (State.reset.withFetchWord 32 0x02)) 0 0 =
    some (0x02#32, 0#64, []) := by decide

/-! ### Witnesses: a state and operands that meet each obligation's hypotheses together -/

/-- The state with one host action to take, and the host moving next. -/
def withAction (s : State) (a : HostAction) : State := { s with script := [a], schedule := [.host] }

/-- The state without any action or turn left. -/
def quiet (s : State) : State := { s with script := [], schedule := [] }

theorem withAction_moves (s : State) (a : HostAction) : (withAction s a).HostMoves a (quiet s) :=
  ⟨[], [], rfl, rfl, rfl⟩

/-- The state in which the focused engine has accepted a word and moves next. -/
def accepted (s : State) (w : Nat) : State := s.withFetchWord 32 w

theorem accepted_moves (s : State) (w : Nat) :
    (accepted s w).EngineMoves 0 (s.engine.accept (tableWord 32 w)) { accepted s w with schedule := s.schedule } :=
  ⟨s.schedule, rfl, rfl, rfl⟩

/-- A second engine at 0x40, encoding from 0x500 to 0x600. -/
def peer : Engine :=
  { operands 1#32 0x500 0 0x600 5 with baseWord := 0x10, pending := some (.command .encode), status := 0x01#32 }

/-- A machine with two engines: the focused one is idle, the other one is in flight. -/
def twoEngines (e : Engine) : State := { machine e [] with peers := [peer] }

/-- `WindowHoldsSixteenWords`: the first and the last word of a window, and the address after it. -/
theorem witness_WindowHoldsSixteenWords :
    peer.portReg 0x40 = some .cmd ∧ peer.portReg 0x7C = some .reserved3C ∧ peer.portReg 0x80 = none ∧
      peer.portReg 0x3C = none := by decide

theorem witness_HostRegisterWrite_busy :
    (withAction (accepted p1 2) (.wr 0x02 9#32)).HostMoves (.wr 0x02 9#32) (quiet (accepted p1 2)) ∧
      (withAction (accepted p1 2) (.wr 0x02 9#32)).portTarget (4 * 0x02) = some (0, .count) ∧
      (withAction (accepted p1 2) (.wr 0x02 9#32)).engineAt 0 = some (p1.engine.accept 2#32) ∧
      (p1.engine.accept 2#32).busy = true :=
  ⟨withAction_moves _ _, by decide, by decide, by decide⟩

/-- The first and the last RW word. -/
theorem witness_HostRegisterWrite_idle :
    (withAction p1 (.wr 0x02 9#32)).HostMoves (.wr 0x02 9#32) (quiet p1) ∧
      (withAction p1 (.wr 0x02 9#32)).portTarget (4 * 0x02) = some (0, .count) ∧
      (withAction p1 (.wr 0x0B 9#32)).portTarget (4 * 0x0B) = some (0, .dstLenHi) ∧
      (withAction p1 (.wr 0x02 9#32)).engineAt 0 = some p1.engine ∧ p1.engine.busy = false ∧
      Reg.count.writable = true ∧ Reg.dstLenHi.writable = true :=
  ⟨withAction_moves _ _, by decide, by decide, by decide, by decide, by decide, by decide⟩

/-- The first and the last RO or reserved word. -/
theorem witness_HostRegisterWrite_ignored :
    (withAction p1 (.wr 0x01 9#32)).HostMoves (.wr 0x01 9#32) (quiet p1) ∧
      (withAction p1 (.wr 0x01 9#32)).portTarget (4 * 0x01) = some (0, .status) ∧
      (withAction p1 (.wr 0x0F 9#32)).portTarget (4 * 0x0F) = some (0, .reserved3C) ∧
      (withAction p1 (.wr 0x01 9#32)).engineAt 0 = some p1.engine ∧ p1.engine.busy = false ∧
      Reg.status.writable = false ∧ Reg.reserved3C.writable = false :=
  ⟨withAction_moves _ _, by decide, by decide, by decide, by decide, by decide, by decide⟩

theorem witness_AcceptEffects :
    (withAction p1 (.wr 0 2#32)).HostMoves (.wr 0 2#32) (quiet p1) ∧
      (withAction p1 (.wr 0 2#32)).portTarget (4 * 0) = some (0, .cmd) ∧
      (withAction p1 (.wr 0 2#32)).engineAt 0 = some p1.engine ∧ p1.engine.busy = false ∧
      (withAction p1 (.wr 0 2#32)).engineConflict 0 (p1.engine.accept 2#32) = false :=
  ⟨withAction_moves _ _, by decide, by decide, by decide, by decide⟩

/-- The word at 0x30 of the focused engine, and the last word of the other one. -/
theorem witness_HostRegisterRead :
    (withAction (twoEngines p1.engine) (.rd 0x1F)).HostMoves (.rd 0x1F) (quiet (twoEngines p1.engine)) ∧
      (withAction (twoEngines p1.engine) (.rd 0x1F)).portTarget (4 * 0x1F) = some (1, .reserved3C) ∧
      (withAction (twoEngines p1.engine) (.rd 0x1F)).engineAt 1 = some peer ∧
      (withAction p1 (.rd 0x0C)).portTarget (4 * 0x0C) = some (0, .resultLo) :=
  ⟨withAction_moves _ _, by decide, by decide, by decide⟩

theorem witness_SixtyFourBitRegisters : Reg64.srcAddr ≠ .result ∧ Reg64.dstLen ≠ .srcAddr := by decide

/-- V8 rows 8 and 9. -/
theorem witness_EmptySequenceCompletes :
    Instr.encode ≠ .capacity ∧ (machine (operands 0 0xFFFFFFFFFFFFFFFF 0 0 0) []).engine.count = 0#32 := by
  decide

theorem witness_IllegalCommandCompletes :
    (accepted p1 0x12).EngineMoves 0 (p1.engine.accept 0x12#32) { accepted p1 0x12 with schedule := [] } ∧
      (p1.engine.accept 0x12#32).pending = some .illegal :=
  ⟨accepted_moves p1 0x12, by decide⟩

/-- V8 row 10, a source one byte too long; and row 13, a destination one byte too long. -/
theorem witness_AccessFaultCompletes :
    (operands 1#32 0xFFD 0 0x200 5).regions .encode = some (⟨0xFFD, 4⟩, ⟨0x200, 5⟩) ∧
      (operands 1#32 0xFFD 0 0x200 5).count ≠ 0#32 ∧
      ¬(operands 1#32 0xFFD 0 0x200 5).encodeSource.InMemory 0x1000 ∧
      (operands 4#32 0x100 0 0x1000 1).encodeSource.InMemory 0x1000 ∧
      ¬(operands 4#32 0x100 0 0x1000 1).encodeDest.InMemory 0x1000 := by decide

/-- V8 row 18; and a destination that starts where the source ends. -/
theorem witness_OverlapRefusedExactly :
    (operands 6#32 0x200 10 0x204 0).decodeSource.overlaps (operands 6#32 0x200 10 0x204 0).decodeDest = true ∧
      (operands 6#32 0x200 10 0x20A 0).decodeSource.overlaps
        (operands 6#32 0x200 10 0x20A 0).decodeDest = false := by decide

/-- A device window that the last byte of the destination touches, and one just after it. -/
theorem witness_DeviceRegionRefused :
    (Platform.mk 0x1000 [⟨0x219, 1⟩]).touchesDevice p1.engine.encodeDest = true ∧
      (Platform.mk 0x1000 [⟨0x21A, 1⟩]).touchesDevice p1.engine.encodeDest = false ∧
      p1.Admits p1.engine.encodeSource p1.engine.encodeDest := by decide

/-- A command that passes the checks completes; BUFFER_TOO_SMALL, FORMAT_ERROR, ACCESS_FAULT and success are
each reached, as `test_encode_bufferTooSmall`, `test_decode_formatError`, `test_accessFault_boundary` and
`test_encode_p1` show. -/
theorem witness_ErrorCodeExactly : ∃ t, exec .encode p1 = .next t ∧ t.engine.status = 0x02#32 :=
  ⟨_, exec_encode_of_admits (by decide), by decide⟩

theorem witness_ErrorWritesNoByte :
    ∃ t, (accepted p1 0x12).engine.pending ≠ none ∧ completion (accepted p1 0x12) = .next t ∧
      t.engine.err ≠ 0#4 :=
  ⟨(accepted p1 0x12).completeIllegal, by decide, rfl, by decide⟩

/-- The capacity exactly, and one byte less. -/
theorem witness_EncodeCompletes :
    p1.Admits p1.engine.encodeSource p1.engine.encodeDest ∧ (6 + 3) / 4 + 4 * 6 ≤ p1.engine.dstLen.toNat ∧
      (machine (operands 6#32 0x100 0 0x200 25) w1Ints).Admits (operands 6#32 0x100 0 0x200 25).encodeSource
        (operands 6#32 0x100 0 0x200 25).encodeDest ∧
      (operands 6#32 0x100 0 0x200 25).dstLen.toNat < (6 + 3) / 4 + 4 * 6 := by decide

theorem witness_EncodeDeltaCompletes :
    p3.Admits p3.engine.encodeSource p3.engine.encodeDest ∧ (3 + 3) / 4 + 4 * 3 ≤ p3.engine.dstLen.toNat := by
  decide

/-- The last slot of the last control byte of six values is padding. -/
theorem witness_EncodedBufferLayout :
    1 < (([1, 2, 44, 5123, 43, 534] : List Word).length + 3) / 4 ∧ 4 * 1 + 3 ≥ 6 ∧
      1 ≤ (lengthCode 534#32).toNat := by decide

theorem witness_DecodeCompletes :
    p2.Admits p2.engine.decodeSource p2.engine.decodeDest ∧
      decodeStream (p2.mem.readBytes 0x200 10) 6 =
        some ([1#32, 2#32, 44#32, 5123#32, 43#32, 534#32], 10) ∧
      p2Short.Admits p2Short.engine.decodeSource p2Short.engine.decodeDest ∧
      decodeStream (p2Short.mem.readBytes 0x200 9) 6 = none := by decide

theorem witness_DecodeDeltaCompletes :
    p3Decode.Admits p3Decode.engine.decodeSource p3Decode.engine.decodeDest ∧
      decodeStream (p3Decode.mem.readBytes 0x200 10) 3 =
        some ([10#32, 0xFFFFFFFB#32, 0xFFFFFFFE#32], 10) ∧
      decodeStream (p3Decode.mem.readBytes 0x200 9) 3 = none := by decide

/-- V6: the control region is cut short, the data is cut short, and just enough. -/
theorem witness_FormatErrorExactly :
    0 < 6 ∧ decodeStream [0x40#8] 6 = none ∧ decodeStream [0x40#8, 0x04#8] 6 = none ∧
      decodeStream [0x00#8, 0x07#8] 1 = some ([7#32], 2) := by decide

theorem witness_DecodeRecoversEncoded : ([7#32] : List Word) ≠ [] := by decide

/-- V6: `E4 01 02 00 03 00 00 04 00 00 00`. -/
theorem witness_WiderCodesDecode :
    (∀ x ∈ [(1#32, 0#2), (2#32, 1#2), (3#32, 2#2), ((4#32 : Word), (3#2 : LengthCode))],
      x.1.toNat < 256 ^ (x.2.toNat + 1)) ∧
    [0xE4#8].length = ceil4 4 ∧
    ∀ i, i < 4 → codeOf [0xE4#8] i = ([0#2, 1#2, 2#2, 3#2] : List LengthCode).getD i 0#2 :=
  ⟨by simp, by decide, by decide⟩

/-- V6: `F4 01 02 03` and `04 01 02 03`. -/
theorem witness_PaddingSlotsIgnored :
    2 % 4 ≠ 0 ∧ ceil4 2 ≤ [0xF4#8, 0x01#8, 0x02#8, 0x03#8].length ∧
      ∀ k, k < 2 % 4 → (0x04#8).extractLsb' (2 * k) 2 = (0xF4#8).extractLsb' (2 * k) 2 := by decide

/-- V6: the W1 buffer with n = 6 and n = 5. -/
theorem witness_SmallerCountDecodesPrefix :
    5 ≤ 6 ∧ ceil4 5 = ceil4 6 ∧ decodeStream p2.sourceBytes 6 =
      some ([1#32, 2#32, 44#32, 5123#32, 43#32, 534#32], 10) := by decide

theorem witness_EncodeThenDecode :
    ∃ t u, p1.Admits p1.engine.encodeSource p1.engine.encodeDest ∧
      maxCompressedBytes p1.engine.count.toNat ≤ p1.engine.dstLen.toNat ∧ exec .encode p1 = .next t ∧
      u = { t with engine := { t.engine with
              srcAddr := p1.engine.dstAddr, srcLen := t.engine.result, dstAddr := 0x300#64 } } ∧
      u.Admits u.engine.decodeSource u.engine.decodeDest :=
  ⟨_, _, by decide, by decide, exec_encode_of_admits (by decide), rfl, by decide⟩

theorem witness_DeltaRoundTrip :
    ∃ t u, p3.Admits p3.engine.encodeSource p3.engine.encodeDest ∧
      maxCompressedBytes p3.engine.count.toNat ≤ p3.engine.dstLen.toNat ∧ exec .encodeDelta p3 = .next t ∧
      u = { t with engine := { t.engine with
              srcAddr := p3.engine.dstAddr, srcLen := t.engine.result, dstAddr := 0x300#64 } } ∧
      u.Admits u.engine.decodeSource u.engine.decodeDest :=
  ⟨_, _, by decide, by decide, exec_encodeDelta_of_admits (by decide), rfl, by decide⟩

theorem witness_SeedMismatchOffsetsValues : ∃ t, exec .decodeDelta p3Decode = .next t :=
  ⟨_, exec_decodeDelta_of_admits (by decide)⟩

theorem witness_DecodeDeltaResultIsDecodes : ∃ t, exec .decode p3Decode = .next t :=
  ⟨_, exec_decode_of_admits (by decide)⟩

/-- V7: `[1000,1001,1003,1010,1100]` with SEED 1000. -/
theorem witness_DeltaNeverLongerIfNonDecreasing :
    ([1000, 1000, 1001, 1003, 1010, 1100] : List Word).Pairwise fun a b => a.toNat ≤ b.toNat := by decide

theorem witness_EncodeFrame :
    (∃ t, exec .encode p1 = .next t) ∧ ∃ t, exec .encodeDelta p3 = .next t :=
  ⟨⟨_, exec_encode_of_admits (by decide)⟩, _, exec_encodeDelta_of_admits (by decide)⟩

theorem witness_DecodeFrame :
    (∃ t, exec .decode p2 = .next t) ∧ (∃ t, exec .decodeDelta p3Decode = .next t) ∧
      ∃ t, exec .decode p2Short = .next t ∧ t.engine.err ≠ 0#4 :=
  ⟨⟨_, exec_decode_of_admits (by decide)⟩, ⟨_, exec_decodeDelta_of_admits (by decide)⟩, _,
    exec_decode_of_admits (by decide), by decide⟩

/-- Two memories that differ only below the source of program P2, and a command that completes; and V8 row 18,
which is refused. -/
theorem witness_SourceBytesDecideOutcome :
    p2.engine.regions .decode = some (p2.engine.decodeSource, p2.engine.decodeDest) ∧
      (∀ a, p2.engine.decodeSource.contains a = true → (p2.mem.write 0x1FF 1#8).read a = p2.mem.read a) ∧
      (∃ t, exec .decode p2 = .next t) ∧
      exec .decode (machine (operands 6#32 0x200 10 0x204 0) w1Buffer) = .refused .overlappingRegions := by
  refine ⟨rfl, fun a ha => ?_, ⟨_, exec_decode_of_admits (by decide)⟩, rfl⟩
  rw [Memory.read_write, if_neg]
  rintro rfl
  exact absurd ha (by decide)

/-- An abandoned memory command with COUNT > 0, one with COUNT = 0 and a destination that is not empty, an
abandoned illegal word, and another engine. -/
theorem witness_ResetClearsEngine :
    (withAction (accepted p1 2) (.reset 0)).HostMoves (.reset 0) (quiet (accepted p1 2)) ∧
      (withAction (accepted p1 2) (.reset 0)).engineAt 0 = some (p1.engine.accept 2#32) ∧
      (p1.engine.accept 2#32).pending = some (.command .encode) ∧
      (p1.engine.accept 2#32).regions .encode = some (⟨0x100, 24⟩, ⟨0x200, 26⟩) ∧
      (p1.engine.accept 2#32).count ≠ 0#32 ∧
      ((operands 0#32 0x100 0 0x200 26).accept 2#32).pending = some (.command .encode) ∧
      ((operands 0#32 0x100 0 0x200 26).accept 2#32).count = 0#32 ∧
      (withAction (machine ((operands 0#32 0x100 0 0x200 26).accept 2#32) []) (.reset 0)).HostMoves (.reset 0)
        (quiet (machine ((operands 0#32 0x100 0 0x200 26).accept 2#32) [])) ∧
      (p1.engine.accept 0x12#32).pending = some .illegal ∧
      (withAction (twoEngines p1.engine) (.reset 0)).engineAt 1 = some peer :=
  ⟨withAction_moves _ _, by decide, by decide, by decide, by decide, by decide, by decide, withAction_moves _ _,
    by decide, by decide⟩

/-- A COUNT = 0 command abandoned by reset leaves memory unchanged (20_memory R69; the model's choice, log entry 7). -/
theorem test_reset_count_zero :
    after (step (withAction (machine ((operands 0#32 0x100 0 0x200 2).accept 2#32) [(0x200, 7#8)]) (.reset 0)))
      0x200 2 = some (0#32, 0#64, [7#8, 0#8]) := by decide

/-- A state in which a command is in flight, and the step that completes it. -/
theorem witness_StepKeepsInvariant :
    (accepted p1 1).Inv ∧ (accepted p1 1).NoConflict ∧ ∃ t, step (accepted p1 1) = .next t :=
  ⟨by decide, by decide, _, rfl⟩

/-- Two engines in flight at once whose regions do not conflict. -/
theorem witness_StepKeepsNoConflict :
    (accepted (twoEngines p1.engine) 1).Inv ∧ (accepted (twoEngines p1.engine) 2).Inv ∧
      (accepted (twoEngines p1.engine) 2).NoConflict ∧ ∃ t, step (accepted (twoEngines p1.engine) 1) = .next t :=
  ⟨by decide, by decide, by decide, _, rfl⟩

theorem witness_CanonicalMemoryExtensional :
    Memory.wf (Memory.write [(1, 1#8)] 2 2#8) ∧ Memory.wf [(1, 1#8), (2, 2#8)] ∧
      Memory.write [(1, 1#8)] 2 2#8 = [(1, 1#8), (2, 2#8)] := by decide

theorem witness_StepRunsDecodedInstruction :
    decodeTableWord 32 2 = some .encode ∧
      (accepted p1 2).EngineMoves 0 (p1.engine.accept 2#32) { accepted p1 2 with schedule := [] } ∧
      (p1.engine.accept 2#32).pending = some (.command .encode) :=
  ⟨by decide, accepted_moves p1 2, by decide⟩

/-- The second engine moves next. -/
theorem witness_EngineStepCompletesItsCommand :
    (twoEngines p1.engine).nextAgent = some (.engine 1, []) ∧
      (twoEngines p1.engine).engineAt 1 = some peer ∧ peer.pending ≠ none := by decide

theorem witness_AcceptedCommandCompletes :
    (accepted p1 2).Inv ∧ (accepted p1 2).engineAt 0 = some (p1.engine.accept 2#32) ∧
      (p1.engine.accept 2#32).pending ≠ none ∧ .reset 0 ∉ (accepted p1 2).script := by decide

/-- A POLL turn while BUSY, one while idle, and a state that starts a POLL loop. -/
theorem witness_PollEnds :
    (withAction (accepted p1 2) (.poll 0)).HostMoves (.poll 0) (quiet (accepted p1 2)) ∧
      (withAction (accepted p1 2) (.poll 0)).engineAt 0 = some (p1.engine.accept 2#32) ∧
      (p1.engine.accept 2#32).status.getLsbD 0 = true ∧
      (withAction p1 (.poll 0)).HostMoves (.poll 0) (quiet p1) ∧
      (withAction p1 (.poll 0)).engineAt 0 = some p1.engine ∧ p1.engine.status.getLsbD 0 = false ∧
      State.Inv { accepted p1 2 with script := [.poll 0] } ∧
      State.script { accepted p1 2 with script := [.poll 0] } = [.poll 0] :=
  ⟨withAction_moves _ _, by decide, by decide, withAction_moves _ _, by decide, by decide, by decide, by decide⟩

/-- The last byte of the source for a write, the last byte of the destination for a read, and the byte after
the destination for an allowed read. -/
theorem witness_HostHazardRefused :
    (withAction (accepted p1 2) (.mw 0x117 [1#8])).HostMoves (.mw 0x117 [1#8]) (quiet (accepted p1 2)) ∧
      (withAction (accepted p1 2) (.mr 0x219 1)).HostMoves (.mr 0x219 1) (quiet (accepted p1 2)) ∧
      (accepted p1 2).inFlight = [(⟨0x100, 24⟩, ⟨0x200, 26⟩)] ∧
      Region.contains ⟨0x100, 24⟩ 0x117 = true ∧ Region.contains ⟨0x200, 26⟩ 0x219 = true ∧
      (withAction (accepted p1 2) (.mr 0x21A 1)).HostMoves (.mr 0x21A 1) (quiet (accepted p1 2)) ∧
      Region.overlaps ⟨0x21A, 1⟩ ⟨0x200, 26⟩ = false ∧ 0x21A + 1 ≤ (accepted p1 2).platform.memSize ∧
      (accepted p1 2).platform.touchesDevice ⟨0x219, 1⟩ = false :=
  ⟨withAction_moves _ _, withAction_moves _ _, by decide, by decide, by decide, withAction_moves _ _, by decide,
    by decide, by decide⟩

/-- A write that ends exactly at MEM_SIZE with nothing in flight. -/
theorem witness_HostMemoryWrite :
    (withAction p1 (.mw 0xFFF [1#8])).HostMoves (.mw 0xFFF [1#8]) (quiet p1) ∧
      0xFFF + 1 ≤ p1.platform.memSize ∧ p1.platform.touchesDevice ⟨0xFFF, 1⟩ = false ∧ p1.inFlight = [] :=
  ⟨withAction_moves _ _, by decide, by decide, by decide⟩

/-- A write and a read of the last byte of memory, which is a device window. -/
theorem witness_HostActionsThatStop_device :
    (withAction { p1 with platform := ⟨0x1000, [⟨0xFFF, 1⟩]⟩ } (.mr 0xFFF 1)).HostMoves (.mr 0xFFF 1)
        (quiet { p1 with platform := ⟨0x1000, [⟨0xFFF, 1⟩]⟩ }) ∧
      (withAction { p1 with platform := ⟨0x1000, [⟨0xFFF, 1⟩]⟩ } (.mw 0xFFF [1#8])).HostMoves (.mw 0xFFF [1#8])
        (quiet { p1 with platform := ⟨0x1000, [⟨0xFFF, 1⟩]⟩ }) ∧
      Region.InMemory ⟨0xFFF, 1⟩ 0x1000 ∧ Region.contains ⟨0xFFF, 1⟩ 0xFFF = true :=
  ⟨withAction_moves _ _, withAction_moves _ _, by decide, by decide⟩

/-- A write one byte past MEM_SIZE, an empty one there, and an engine number just past the last. -/
theorem witness_HostActionsThatStop :
    (withAction p1 (.mw 0x1000 [1#8])).HostMoves (.mw 0x1000 [1#8]) (quiet p1) ∧
      ¬Region.InMemory ⟨0x1000, 1⟩ p1.platform.memSize ∧ Region.InMemory ⟨0x1000, 0⟩ p1.platform.memSize ∧
      (withAction p1 (.poll 1)).HostMoves (.poll 1) (quiet p1) ∧ (withAction p1 (.poll 1)).engines.length ≤ 1 ∧
      (Platform.mk 0x1000 [⟨0xFFF, 1⟩]).touchesDevice ⟨0xFFF, 1⟩ = true :=
  ⟨withAction_moves _ _, by decide, by decide, withAction_moves _ _, by decide, by decide⟩

/-- The focused engine would encode into the last byte of the other engine's source. -/
theorem witness_ConflictingAcceptRefused :
    (withAction (twoEngines (operands 1#32 0x100 0 0x503 5)) (.wr 0 2#32)).HostMoves (.wr 0 2#32)
        (quiet (twoEngines (operands 1#32 0x100 0 0x503 5))) ∧
      (twoEngines (operands 1#32 0x100 0 0x503 5)).portTarget (4 * 0) = some (0, .cmd) ∧
      (twoEngines (operands 1#32 0x100 0 0x503 5)).engineAt 0 = some (operands 1#32 0x100 0 0x503 5) ∧
      (operands 1#32 0x100 0 0x503 5).busy = false ∧
      ((operands 1#32 0x100 0 0x503 5).accept 2#32).inFlight = some (⟨0x100, 4⟩, ⟨0x503, 5⟩) ∧
      peer.inFlight = some (⟨0x500, 4⟩, ⟨0x600, 5⟩) ∧ Region.contains ⟨0x503, 5⟩ 0x503 = true ∧
      Region.contains ⟨0x500, 4⟩ 0x503 = true ∧
      (withAction (twoEngines (operands 1#32 0x100 0 0x503 5)) (.wr 0 2#32)).engineAt 1 = some peer :=
  ⟨withAction_moves _ _, by decide, by decide, by decide, by decide, by decide, by decide, by decide, by decide⟩

/-- A width that holds the value and is not the smallest. -/
theorem witness_LengthCodeMinimal : (255#32).toNat < 256 ^ ((1#2).toNat + 1) := by decide

/-- The word before a window, its first and its last word, and the word after it. -/
theorem witness_PortWordsAreAligned :
    peer.portReg (4 * 0x0F) = none ∧ peer.portReg (4 * 0x10) = some .cmd ∧
      peer.portReg (4 * 0x1F) = some .reserved3C ∧ peer.portReg (4 * 0x20) = none := by decide

/-- The first word after both windows. -/
theorem witness_AccessOutsideWindows :
    (withAction (twoEngines p1.engine) (.wr 0x20 9#32)).HostMoves (.wr 0x20 9#32) (quiet (twoEngines p1.engine)) ∧
      (withAction (twoEngines p1.engine) (.rd 0x20)).HostMoves (.rd 0x20) (quiet (twoEngines p1.engine)) ∧
      ∀ e ∈ (twoEngines p1.engine).engines, 4 * 0x20 < e.base ∨ e.base + 64 ≤ 4 * 0x20 :=
  ⟨withAction_moves _ _, withAction_moves _ _, by decide⟩

/-- `WR COUNT, 6` is the write of the word at offset 0x08 (program P1, step 2; 30_encoding R101). -/
theorem test_writeRegAction : writeRegAction 0x10 .count 6#32 = .wr 0x12 6#32 ∧ 4 * 0x12 = peer.base + 0x08 := by
  decide

end Sys2Proof.Tests
end

