-- ==== Sys2Proof/Proofs/IntegerArrays.lean ====
section
/-! PROOFS. Integer arrays byte by byte (20_memory R65, R66): the bytes of a little-endian value, of a written
element and of a read element. -/

namespace Sys2Proof.Machine

/-! ### Bytes of a value -/

/-- Byte `k` of a word, as a quotient of its value. -/
theorem byteOf_eq_ofNat_div (v : Word) (k : Nat) :
    v.extractLsb' (8 * k) 8 = BitVec.ofNat 8 (v.toNat / 256 ^ k) := by
  rw [BitVec.extractLsb', Nat.shiftRight_eq_div_pow, Nat.pow_mul]

/-- A word is determined by its four bytes: bit `j` is bit `j % 8` of byte `j / 8`. -/
theorem word_eq_of_bytes {u v : Word}
    (h : ∀ k < 4, u.extractLsb' (8 * k) 8 = v.extractLsb' (8 * k) 8) : u = v := by
  refine BitVec.eq_of_getLsbD_eq fun j hj => ?_
  have hbit := congrArg (BitVec.getLsbD · (j % 8)) (h (j / 8) (by omega))
  simpa [BitVec.getLsbD_extractLsb', Nat.mod_lt, Nat.div_add_mod] using hbit

/-- Byte `k` of a value laid out least significant first. -/
theorem getD_leBytes {n k : Nat} (v : Nat) (hk : k < n) :
    (leBytes n v).getD k 0#8 = BitVec.ofNat 8 (v / 256 ^ k) := by
  induction n generalizing v k with
  | zero => omega
  | succ n ih =>
    cases k with
    | zero => simp [leBytes]
    | succ k =>
      rw [leBytes, List.getD_cons_succ, ih _ (by omega), Nat.div_div_eq_div_mul, Nat.pow_succ']

/-- Byte `k` of the value that bytes spell is the `k`-th of them. -/
theorem ofNat_leValue_div (bs : List Byte) (k : Nat) :
    BitVec.ofNat 8 (leValue bs / 256 ^ k) = bs.getD k 0#8 := by
  induction bs generalizing k with
  | nil => simp [leValue]
  | cons b bs ih =>
    have hb := b.isLt
    cases k with
    | zero =>
      refine BitVec.eq_of_toNat_eq ?_
      rw [BitVec.toNat_ofNat, List.getD_cons_zero, leValue]
      omega
    | succ k =>
      rw [List.getD_cons_succ, ← ih, Nat.pow_succ', ← Nat.div_div_eq_div_mul, leValue,
        show (b.toNat + 256 * leValue bs) / 256 = leValue bs by omega]

/-! ### Written elements -/

/-- Byte `k` of element `i` is at position `4i + k` of the layout. -/
theorem getD_intBytes {vals : List Word} {i k : Nat} (hi : i < vals.length) (hk : k < 4) :
    (intBytes vals).getD (4 * i + k) 0#8 = (vals.getD i 0#32).extractLsb' (8 * k) 8 := by
  induction vals generalizing i with
  | nil => cases hi
  | cons v vs ih =>
    cases i with
    | zero =>
      have hlen : k < (leBytes 4 v.toNat).length := by rwa [length_leBytes]
      rw [intBytes, Nat.mul_zero, Nat.zero_add, List.getD_eq_getElem?_getD,
        List.getElem?_append_left hlen, ← List.getD_eq_getElem?_getD, getD_leBytes _ hk,
        List.getD_cons_zero, byteOf_eq_ofNat_div]
    | succ i =>
      have hlen : (leBytes 4 v.toNat).length ≤ 4 * (i + 1) + k := by
        rw [length_leBytes]
        omega
      rw [intBytes, List.getD_eq_getElem?_getD, List.getElem?_append_right hlen, length_leBytes,
        show 4 * (i + 1) + k - 4 = 4 * i + k by omega, ← List.getD_eq_getElem?_getD,
        List.getD_cons_succ, ih (Nat.lt_of_succ_lt_succ hi)]

theorem Memory.read_writeInts (m : Memory) (a : Nat) {vals : List Word} {i k : Nat}
    (hi : i < vals.length) (hk : k < 4) :
    (m.writeInts a vals).read (a + 4 * i + k) = (vals.getD i 0#32).extractLsb' (8 * k) 8 := by
  have hin : a ≤ a + 4 * i + k ∧ a + 4 * i + k < a + (intBytes vals).length := by
    rw [length_intBytes]
    omega
  rw [Memory.writeInts, Memory.read_writeBytes, if_pos hin,
    show a + 4 * i + k - a = 4 * i + k by omega, getD_intBytes hi hk]

theorem Memory.sameOutside_writeInts (m : Memory) (a : Nat) (vals : List Word) :
    m.SameOutside (m.writeInts a vals) ⟨a, 4 * vals.length⟩ := by
  intro x hx
  refine Memory.read_writeBytes_outside _ m ?_
  rw [length_intBytes]
  simpa [Region.contains] using hx

/-! ### Read elements -/

theorem Memory.byteOf_readInt (m : Memory) (a i : Nat) {k : Nat} (hk : k < 4) :
    (m.readInt a i).extractLsb' (8 * k) 8 = m.read (a + 4 * i + k) := by
  have hlt : leValue (m.readBytes (a + 4 * i) 4) < 2 ^ 32 := by
    simpa using leValue_lt (m.readBytes (a + 4 * i) 4)
  rw [byteOf_eq_ofNat_div, Memory.readInt, BitVec.toNat_ofNat, Nat.mod_eq_of_lt hlt,
    ofNat_leValue_div, Memory.getD_readBytes m 4 _ k hk]

theorem Memory.getD_readInts (m : Memory) (a : Nat) {n i : Nat} (hi : i < n) :
    (m.readInts a n).getD i 0#32 = m.readInt a i := by
  rw [Memory.readInts, List.getD_eq_getElem?_getD, List.getElem?_map, List.getElem?_range hi,
    Option.map_some, Option.getD_some]

/-- A written sequence reads back: each element read has the bytes that were written for it. -/
theorem Memory.readInts_writeInts (m : Memory) (a : Nat) (vals : List Word) :
    (m.writeInts a vals).readInts a vals.length = vals := by
  refine List.ext_getElem (by simp) fun i _ hi => word_eq_of_bytes fun k hk => ?_
  rw [List.getElem_eq_getD 0#32, List.getElem_eq_getD 0#32, Memory.getD_readInts _ _ hi,
    Memory.byteOf_readInt _ _ _ hk, Memory.read_writeInts m a hi hk]

/-- Settles O55: each element byte by byte, as written and as read. -/
theorem integerArrayLayout : Obligations.IntegerArrayLayout := by
  intro m a vals
  refine ⟨Memory.readInts_writeInts m a vals, fun i k hi hk => Memory.read_writeInts m a hi hk,
    Memory.sameOutside_writeInts m a vals, fun n i k hi hk => ?_⟩
  rw [Memory.getD_readInts m a hi, Memory.byteOf_readInt m a i hk]

end Sys2Proof.Machine
end

