-- ==== Sys2Proof/Proofs/CommandWords.lean ====
section
/-! PROOFS. Command words (30_encoding R90, R91): the decoder answers a command for exactly the word the encoder
gives it. -/

namespace Sys2Proof

/-- A word is the join of its two fields. -/
theorem word_cmdFields (w : Word) : (cmdFields w).word = w :=
  (BitVec.extractLsb'_append_extractLsb'_eq_extractLsb' rfl).trans BitVec.extractLsb'_eq_self

@[simp] theorem op_cmdFields_encode (i : Instr) : (cmdFields (encode i)).op = encodeOp i :=
  BitVec.extractLsb'_append_eq_right

@[simp] theorem res_cmdFields_encode (i : Instr) : (cmdFields (encode i)).res = 0#28 :=
  BitVec.extractLsb'_append_eq_left

/-- A word is a command's word exactly when both of its fields are the command's. -/
theorem eq_encode_iff {w : Word} {i : Instr} :
    w = encode i ↔ (cmdFields w).res = 0#28 ∧ (cmdFields w).op = encodeOp i := by
  constructor
  · rintro rfl
    exact ⟨res_cmdFields_encode i, op_cmdFields_encode i⟩
  · rintro ⟨hres, hop⟩
    rw [← word_cmdFields w, CmdFields.word, hres, hop, encode, CmdFields.word]

/-- The answer of each branch is the command whose OP value the branch tests. -/
theorem decodeOp_eq_ok_iff {op : BitVec 4} {i : Instr} : decodeOp op = .ok i ↔ op = encodeOp i := by
  constructor
  · intro h
    simp only [decodeOp] at h
    repeat' split at h
    all_goals cases h <;> assumption
  · rintro rfl
    cases i <;> rfl

theorem decode_eq_ok_iff {w : Word} {i : Instr} : decode w = .ok i ↔ w = encode i := by
  rw [eq_encode_iff, ← decodeOp_eq_ok_iff, decode]
  split
  case isTrue hres => exact (and_iff_right hres).symm
  case isFalse hres => simp [hres]

namespace Machine

theorem classify_eq_command_iff {w : Word} {i : Instr} : classify w = .command i ↔ w = encode i := by
  rw [← decode_eq_ok_iff, classify]
  cases decode w <;> simp

/-- Settles O2: a word that classifies as a command is that command's word, and an illegal word is none of the
five. -/
theorem classifyMatchesWholeWord : Obligations.ClassifyMatchesWholeWord := by
  intro w
  cases hw : classify w with
  | command i =>
    obtain rfl := classify_eq_command_iff.mp hw
    cases i <;> rfl
  | illegal =>
    have hne (i : Instr) : w ≠ encode i := fun h => by
      rw [classify_eq_command_iff.mpr h] at hw
      cases hw
    exact ((if_neg (hne .capacity)).trans <| (if_neg (hne .encode)).trans <| (if_neg (hne .decode)).trans <|
      (if_neg (hne .encodeDelta)).trans <| if_neg (hne .decodeDelta)).symm

end Machine
end Sys2Proof
end

