-- ==== Sys2Proof/Proofs/CommandCycle.lean ====
section
/-! PROOFS. The command cycle (40_command_cycle R121, R123, R124): a host's turn runs its action, a CMD write to an
idle engine accepts the word, and a memory command on an empty sequence completes at its first check. -/

namespace Sys2Proof.Machine

/-! ### A host's turn -/

section
variable {s u : State} {a : HostAction} (h : s.HostMoves a u)
include h

theorem State.HostMoves.step_eq : step s = u.hostAct a := by
  obtain ⟨script, schedule, hagent, hscript, rfl⟩ := h
  simp only [step, hagent, State.hostTurn, hscript]

theorem State.HostMoves.portTarget_eq (addr : Nat) : u.portTarget addr = s.portTarget addr := by
  obtain ⟨_, _, -, -, rfl⟩ := h
  rfl

theorem State.HostMoves.engineAt_eq (k : Nat) : u.engineAt k = s.engineAt k := by
  obtain ⟨_, _, -, -, rfl⟩ := h
  rfl

theorem State.HostMoves.engineConflict_eq (k : Nat) (e : Engine) :
    u.engineConflict k e = s.engineConflict k e := by
  obtain ⟨_, _, -, -, rfl⟩ := h
  rfl

end

/-! ### Accepting a command word -/

theorem State.hostWrite_of_portTarget {s : State} {addr k : Nat} {r : Reg} (w : Word)
    (h : s.portTarget addr = some (k, r)) : s.hostWrite addr w = s.writePort k r w := by
  simp only [State.hostWrite, h]

theorem State.writePort_cmd_of_idle {s : State} {k : Nat} {e : Engine} (w : Word)
    (he : s.engineAt k = some e) (hidle : e.busy = false) :
    s.writePort k .cmd w = s.acceptAt k e w := by
  simp [State.writePort, he, hidle]

theorem State.acceptAt_of_no_conflict {s : State} {k : Nat} {e : Engine} {w : Word}
    (h : s.engineConflict k (e.accept w) = false) :
    s.acceptAt k e w = .next (s.setEngineAt k (e.accept w)) := by
  simp [State.acceptAt, h]

theorem Engine.accept_eq (e : Engine) (w : Word) :
    e.accept w = { e with pending := some (classify w), status := 0x01#32, result := 0#64 } := by
  rw [Engine.accept, statusWord_accept]

/-- Settles O6: the host's action is a write to the CMD word of an idle engine, and no conflict refuses the
accept. -/
theorem acceptEffects : Obligations.AcceptEffects := by
  intro s u word k w e hmoves hport he hidle hconflict
  rw [← hmoves.portTarget_eq] at hport
  rw [← hmoves.engineAt_eq] at he
  rw [← hmoves.engineConflict_eq] at hconflict
  calc step s
    _ = u.hostWrite (4 * word) w := hmoves.step_eq
    _ = u.writePort k .cmd w := State.hostWrite_of_portTarget w hport
    _ = u.acceptAt k e w := State.writePort_cmd_of_idle w he hidle
    _ = .next (u.setEngineAt k (e.accept w)) := State.acceptAt_of_no_conflict hconflict
    _ = _ := by rw [Engine.accept_eq]

/-! ### Completing on an empty sequence -/

theorem State.guarded_of_count_eq_zero {s : State} (h : s.engine.count = 0#32) (src dst : Region)
    (run : State → State) : s.guarded src dst run = .next (s.completeOk 0) := by
  rw [State.guarded, if_pos h]

theorem Engine.exists_regions {i : Instr} (h : i ≠ .capacity) (e : Engine) :
    ∃ src dst, e.regions i = some (src, dst) := by
  cases i with
  | capacity => exact absurd rfl h
  | encode | decode | encodeDelta | decodeDelta => exact ⟨_, _, rfl⟩

/-- A command with regions runs under the shared checks of its regions (40_command_cycle R125). -/
theorem exec_eq_guarded {i : Instr} {s : State} {src dst : Region}
    (h : s.engine.regions i = some (src, dst)) : ∃ run, exec i s = s.guarded src dst run := by
  cases i with
  | capacity => cases h
  | encode | decode | encodeDelta | decodeDelta =>
    cases h
    unfold exec
    exact ⟨_, rfl⟩

theorem exec_of_count_eq_zero {i : Instr} {s : State} (hi : i ≠ .capacity) (h : s.engine.count = 0#32) :
    exec i s = .next (s.completeOk 0) := by
  obtain ⟨src, dst, hregions⟩ := s.engine.exists_regions hi
  obtain ⟨run, hrun⟩ := exec_eq_guarded hregions
  rw [hrun, State.guarded_of_count_eq_zero h]

theorem State.completeOk_eq (s : State) (n : Nat) :
    s.completeOk n =
      { s with engine :=
          { s.engine with result := BitVec.ofNat 64 n, status := 0x02#32, pending := none } } := by
  rw [State.completeOk, Engine.complete, statusWord_ok]

/-- Settles O10: the completion of an empty sequence, with its STATUS word written out. -/
theorem emptySequenceCompletes : Obligations.EmptySequenceCompletes := by
  intro i s hi hcount
  rw [exec_of_count_eq_zero hi hcount, State.completeOk_eq]

end Sys2Proof.Machine
end

