-- ==== Sys2Proof/Proofs/ControlCoder.lean ====
section
/-! PROOFS. The control coder (41_control_coder R140, R141, R145): the length code is the one code whose width just
holds the value, and a control byte is its four slots. -/

namespace Sys2Proof.Machine

/-! ### The length code -/

/-- A narrower code than the chosen one would not hold the value. -/
theorem pow_lengthCode_le {v : Word} (h : lengthCode v ≠ 0#2) : 256 ^ (lengthCode v).toNat ≤ v.toNat := by
  revert h
  unfold lengthCode
  split
  · exact fun h => absurd rfl h
  split
  · exact fun _ => Nat.not_lt.mp ‹¬v.toNat < 0x100›
  split
  · exact fun _ => Nat.not_lt.mp ‹¬v.toNat < 0x10000›
  · exact fun _ => Nat.not_lt.mp ‹¬v.toNat < 0x1000000›

theorem lengthCode_le_of_lt_pow {v : Word} {c : LengthCode} (h : v.toNat < 256 ^ width c) :
    (lengthCode v).toNat ≤ c.toNat := by
  refine Nat.not_lt.mp fun hlt => ?_
  have hne : lengthCode v ≠ 0#2 := fun h0 => by
    rw [h0] at hlt
    exact Nat.not_lt_zero c.toNat hlt
  have hpow : 256 ^ width c ≤ 256 ^ (lengthCode v).toNat := Nat.pow_le_pow_right (by decide) hlt
  exact Nat.not_lt.mpr (Nat.le_trans hpow (pow_lengthCode_le hne)) h

/-- Settles O51: the code chosen is wide enough, and no narrower code is. -/
theorem lengthCodeMinimal : Obligations.LengthCodeMinimal :=
  fun v => ⟨lt_pow_lengthCode v, fun _ => lengthCode_le_of_lt_pow⟩

/-- A code that holds the value is the chosen one when the code below it does not. -/
theorem lengthCode_eq_of_pow_le {v : Word} {c : LengthCode} (hlo : 256 ^ c.toNat ≤ v.toNat)
    (hhi : v.toNat < 256 ^ width c) : lengthCode v = c := by
  have hlt : c.toNat < width (lengthCode v) :=
    (Nat.pow_lt_pow_iff_right (by decide)).mp (Nat.lt_of_le_of_lt hlo (lt_pow_lengthCode v))
  exact BitVec.eq_of_toNat_eq (Nat.le_antisymm (lengthCode_le_of_lt_pow hhi) (Nat.le_of_lt_succ hlt))

/-- With no byte above byte `k` set, byte `k` is zero exactly for the values below its weight. -/
theorem byteOf_eq_zero_iff {v : Word} {k : Nat} (h : v.toNat < 256 ^ (k + 1)) :
    v.extractLsb' (8 * k) 8 = 0#8 ↔ v.toNat < 256 ^ k := by
  have hdiv : v.toNat / 256 ^ k < 2 ^ 8 := Nat.div_lt_of_lt_mul (by rwa [Nat.pow_succ] at h)
  rw [byteOf_eq_ofNat_div, ← Nat.div_eq_zero_iff_lt (Nat.pow_pos (by decide)), ← BitVec.toNat_inj,
    BitVec.toNat_ofNat, Nat.mod_eq_of_lt hdiv, BitVec.toNat_ofNat, Nat.zero_mod]

/-- The place of the highest non-zero byte is the length code. -/
theorem lengthCode_eq_of_byteOf_ne_zero {v : Word} {c : LengthCode} (hhi : v.toNat < 256 ^ width c)
    (hbyte : v.extractLsb' (8 * c.toNat) 8 ≠ 0#8) : lengthCode v = c :=
  lengthCode_eq_of_pow_le (Nat.not_lt.mp (mt (byteOf_eq_zero_iff hhi).mpr hbyte)) hhi

/-- Settles O52: a test that finds its byte zero lowers the bound on the value by one byte, so that the test that
succeeds stands at the highest non-zero byte. -/
theorem lengthCodeByteTest : Obligations.LengthCodeByteTest := by
  intro v
  have h4 : v.toNat < 256 ^ 4 := v.isLt
  split
  case isTrue hb3 => exact lengthCode_eq_of_byteOf_ne_zero h4 hb3
  case isFalse hb3 =>
    have h3 : v.toNat < 256 ^ 3 := (byteOf_eq_zero_iff h4).mp (Decidable.not_not.mp hb3)
    split
    case isTrue hb2 => exact lengthCode_eq_of_byteOf_ne_zero h3 hb2
    case isFalse hb2 =>
      have h2 : v.toNat < 256 ^ 2 := (byteOf_eq_zero_iff h3).mp (Decidable.not_not.mp hb2)
      split
      case isTrue hb1 => exact lengthCode_eq_of_byteOf_ne_zero h2 hb1
      case isFalse hb1 =>
        have h1 : v.toNat < 256 ^ 1 := (byteOf_eq_zero_iff h2).mp (Decidable.not_not.mp hb1)
        exact BitVec.eq_of_toNat_eq (Nat.le_zero.mp (lengthCode_le_of_lt_pow (c := 0#2) h1))

/-! ### The control byte -/

/-- Bytes with equal slots are equal: bit `i` stands in slot `i / 2` (41_control_coder R146). -/
theorem byte_eq_of_controlSlot {a b : Byte} (h : ∀ k < 4, controlSlot a k = controlSlot b k) : a = b := by
  refine BitVec.eq_of_getLsbD_eq fun i hi => ?_
  have hbit := congrArg (BitVec.getLsbD · (i % 2)) (h (i / 2) (by omega))
  have hmod : i % 2 < 2 := Nat.mod_lt i (by decide)
  simpa only [controlSlot, BitVec.getLsbD_extractLsb', hmod, decide_true, Bool.true_and,
    Nat.div_add_mod] using hbit

theorem unpackControlByte_packControlByte (c0 c1 c2 c3 : LengthCode) :
    unpackControlByte (packControlByte c0 c1 c2 c3) = [c0, c1, c2, c3] := by
  obtain ⟨h0, h1, h2, h3⟩ := controlSlot_packControlByte c0 c1 c2 c3
  rw [unpackControlByte, h0, h1, h2, h3]

theorem packControlByte_controlSlot (b : Byte) :
    packControlByte (controlSlot b 0) (controlSlot b 1) (controlSlot b 2) (controlSlot b 3) = b := by
  obtain ⟨h0, h1, h2, h3⟩ := controlSlot_packControlByte (controlSlot b 0) (controlSlot b 1)
    (controlSlot b 2) (controlSlot b 3)
  refine byte_eq_of_controlSlot fun k hk => ?_
  match k, hk with
  | 0, _ => exact h0
  | 1, _ => exact h1
  | 2, _ => exact h2
  | 3, _ => exact h3

/-- Settles O53: each slot of a packed byte is its code, and a byte is the pack of its slots. -/
theorem packUnpackInverse : Obligations.PackUnpackInverse :=
  ⟨unpackControlByte_packControlByte, fun b => ⟨_, _, _, _, rfl, packControlByte_controlSlot b⟩⟩

end Sys2Proof.Machine
end

