-- ==== Sys2Proof/Proofs/DataStream.lean ====
section
/-! PROOFS. The data stream (42_data_stream R160, R162): the bytes of a value, and reading it back. -/

namespace Sys2Proof.Machine

/-- Byte `k` of a written value is byte `k` of the word. -/
theorem getD_writeValue (v : Word) {c : LengthCode} {k : Nat} (hk : k < width c) :
    (writeValue v c).getD k 0#8 = v.extractLsb' (8 * k) 8 := by
  rw [writeValue, getD_leBytes _ hk, byteOf_eq_ofNat_div]

/-- A value written in its own width, alone in a buffer, is read back from offset 0. -/
theorem readValue_writeValue_lengthCode (v : Word) :
    readValue (writeValue v (lengthCode v)) 0 (lengthCode v) = some (v, width (lengthCode v)) := by
  simpa using readValue_writeValue (lt_pow_lengthCode v) [] []

/-- Settles O54: the written bytes are the word's low bytes, and the word's own width holds all of it. -/
theorem valueBytesRoundTrip : Obligations.ValueBytesRoundTrip :=
  ⟨fun v c => ⟨length_writeValue v c, fun _ hk => getD_writeValue v (Nat.lt_succ_of_le hk)⟩,
    readValue_writeValue_lengthCode⟩

end Sys2Proof.Machine
end

