-- ==== Sys2Proof/Proofs/EncodedSize.lean ====
section
/-! PROOFS. The size of an encoded sequence (43_encode R184, R185): the control region takes one byte per group and the
data region the width of each value, so that the size is extreme exactly when every width is. -/

namespace Sys2Proof.Machine

/-! ### Values of the least and of the greatest width -/

theorem width_lengthCode_eq_one_iff {v : Word} : width (lengthCode v) = 1 ↔ v.toNat < 0x100 := by
  constructor
  · intro h
    have hlt := lt_pow_lengthCode v
    rwa [h] at hlt
  · intro h
    exact congrArg (· + 1) (Nat.le_zero.mp (lengthCode_le_of_lt_pow (c := 0#2) h))

theorem width_lengthCode_eq_four_iff {v : Word} : width (lengthCode v) = 4 ↔ 0x1000000 ≤ v.toNat := by
  constructor
  · intro h
    have hcode : lengthCode v = 3#2 := BitVec.eq_of_toNat_eq (Nat.succ.inj h)
    have hle := pow_lengthCode_le (v := v) (by simp [hcode])
    rwa [hcode] at hle
  · intro h
    rw [lengthCode_eq_of_pow_le (c := 3#2) h v.isLt]
    rfl

/-! ### The regions -/

theorem length_dataRegion_cons (v : Word) (vs : List Word) :
    (dataRegion (v :: vs)).length = width (lengthCode v) + (dataRegion vs).length := by
  rw [dataRegion, List.length_append, length_writeValue]

theorem length_dataRegion (vals : List Word) :
    (dataRegion vals).length = (vals.map fun v => (lengthCode v).toNat + 1).sum := by
  induction vals with
  | nil => rfl
  | cons v vs ih => rw [length_dataRegion_cons, ih, List.map_cons, List.sum_cons, width]

theorem length_encodeStream (vals : List Word) :
    (encodeStream vals).length = ceil4 vals.length + (dataRegion vals).length := by
  rw [encodeStream, List.length_append, length_controlRegion]

/-- No value takes less than a byte, so one byte each means that no value takes more. -/
theorem length_dataRegion_eq_length_iff {vals : List Word} :
    (dataRegion vals).length = vals.length ↔ ∀ v ∈ vals, v.toNat < 0x100 := by
  induction vals with
  | nil => simp [dataRegion]
  | cons v vs ih =>
    have hhead := width_pos (lengthCode v)
    have htail := (length_dataRegion_bounds vs).1
    rw [List.forall_mem_cons, ← ih, ← width_lengthCode_eq_one_iff, length_dataRegion_cons,
      List.length_cons]
    omega

/-- No value takes more than four bytes, so four bytes each means that no value takes less. -/
theorem length_dataRegion_eq_four_mul_length_iff {vals : List Word} :
    (dataRegion vals).length = 4 * vals.length ↔ ∀ v ∈ vals, 0x1000000 ≤ v.toNat := by
  induction vals with
  | nil => simp [dataRegion]
  | cons v vs ih =>
    have hhead := width_le (lengthCode v)
    have htail := (length_dataRegion_bounds vs).2
    rw [List.forall_mem_cons, ← ih, ← width_lengthCode_eq_four_iff, length_dataRegion_cons,
      List.length_cons]
    omega

/-! ### The encoded sequence -/

/-- Settles O20: the control region, and the data region value by value. -/
theorem encodedLength : Obligations.EncodedLength := by
  intro vals
  rw [length_encodeStream, length_dataRegion, ceil4]

/-- Settles O21: the control region has the same size for all sequences of a length, so each bound is the data
region's. -/
theorem encodedSizeBounds : Obligations.EncodedSizeBounds := by
  intro vals
  obtain ⟨hlo, hhi⟩ := length_dataRegion_bounds vals
  rw [length_encodeStream, maxCompressedBytes]
  refine ⟨Nat.add_le_add_left hlo _, Nat.add_le_add_left hhi _, ?_, ?_⟩
  · rw [Nat.add_left_cancel_iff, length_dataRegion_eq_length_iff]
  · rw [Nat.add_left_cancel_iff, length_dataRegion_eq_four_mul_length_iff]

end Sys2Proof.Machine
end

