-- ==== Sys2Proof/Proofs/Encode.lean ====
section
/-! PROOFS. The command ENCODE (43_encode R181, R182): what storing an encoded sequence does to the registers and to
memory, in each of its two outcomes. -/

namespace Sys2Proof.Machine

/-! ### Bytes written -/

theorem Memory.read_writeBytes_add (m : Memory) (a : Nat) {bs : List Byte} {j : Nat} (hj : j < bs.length) :
    (m.writeBytes a bs).read (a + j) = bs.getD j 0#8 := by
  rw [Memory.read_writeBytes, if_pos ⟨Nat.le_add_right a j, Nat.add_lt_add_left hj a⟩,
    Nat.add_sub_cancel_left]

theorem Memory.sameOutside_writeBytes (m : Memory) (a : Nat) (bs : List Byte) :
    m.SameOutside (m.writeBytes a bs) ⟨a, bs.length⟩ := by
  intro x hx
  refine Memory.read_writeBytes_outside bs m ?_
  simpa [Region.contains] using hx

/-! ### Storing an encoded sequence -/

/-- The size of any sequence that COUNT can count fits RESULT (46_capacity R241). -/
theorem length_encodeStream_lt {vals : List Word} (h : vals.length < 2 ^ 32) :
    (encodeStream vals).length < 2 ^ 35 :=
  Nat.lt_of_le_of_lt (length_encodeStream_le vals) (maxCompressedBytes_lt h)

theorem State.storeEncoded_of_lt {s : State} (vals : List Word)
    (h : s.engine.dstLen.toNat < maxCompressedBytes s.engine.count.toNat) :
    s.storeEncoded vals = s.raiseError .bufferTooSmall := by
  rw [State.storeEncoded, if_pos h]

theorem State.storeEncoded_of_le {s : State} (vals : List Word)
    (h : maxCompressedBytes s.engine.count.toNat ≤ s.engine.dstLen.toNat) :
    s.storeEncoded vals =
      State.completeOk
        { s with mem := s.mem.writeBytes s.engine.dstAddr.toNat (encodeStream vals) }
        (encodeStream vals).length := by
  rw [State.storeEncoded, if_neg (Nat.not_lt.mpr h)]

/-- What both outcomes leave unchanged. -/
theorem State.storeEncoded_frame (s : State) (vals : List Word) :
    (s.storeEncoded vals).engine.pending = none ∧
      s.engine.SameOperands (s.storeEncoded vals).engine ∧
      (s.storeEncoded vals).engine.prev = s.engine.prev ∧
      s.SameSurroundings (s.storeEncoded vals) := by
  obtain ⟨-, h⟩ | ⟨-, h⟩ := State.storeEncoded_cases s vals <;>
    simp [h, Engine.SameOperands, State.SameSurroundings]

/-- A buffer below the capacity bound: BUFFER_TOO_SMALL, and no byte written. -/
theorem State.storeEncoded_tooSmall {s : State} (vals : List Word)
    (h : s.engine.dstLen.toNat < maxCompressedBytes s.engine.count.toNat) :
    (s.storeEncoded vals).engine.status = 0x12#32 ∧ (s.storeEncoded vals).engine.result = 0#64 ∧
      (s.storeEncoded vals).mem = s.mem := by
  simp [State.storeEncoded_of_lt vals h]

/-- A buffer that holds the capacity bound of COUNT values: success, with the encoded bytes from DST_ADDR on. -/
theorem State.storeEncoded_fits {s : State} {vals : List Word}
    (hlen : vals.length = s.engine.count.toNat)
    (h : maxCompressedBytes s.engine.count.toNat ≤ s.engine.dstLen.toNat) :
    (s.storeEncoded vals).engine.status = 0x02#32 ∧
      (s.storeEncoded vals).engine.result.toNat = (encodeStream vals).length ∧
      (s.storeEncoded vals).mem = s.mem.writeBytes s.engine.dstAddr.toNat (encodeStream vals) := by
  have hlt := length_encodeStream_lt (vals := vals) (hlen ▸ s.engine.count.isLt)
  rw [State.storeEncoded_of_le vals h]
  exact ⟨statusWord_ok, (BitVec.toNat_ofNat _ _).trans (Nat.mod_eq_of_lt (by omega)), rfl⟩

/-! ### The command -/

/-- Settles O17: ENCODE stores the encoded source integers, which are COUNT many, and the capacity check decides
between the two outcomes. -/
theorem encodeCompletes : Obligations.EncodeCompletes := by
  intro s hadmits out cap
  have hlen : s.releaseCursors.sourceInts.length = s.releaseCursors.engine.count.toNat :=
    Memory.length_readInts _ _ _
  obtain ⟨hpending, hoperands, hprev, hsurroundings⟩ :=
    State.storeEncoded_frame s.releaseCursors s.releaseCursors.sourceInts
  refine ⟨_, exec_encode_of_admits hadmits, hpending, hoperands, hprev, hsurroundings,
    fun hsmall => State.storeEncoded_tooSmall _ hsmall, fun hfits => ?_⟩
  obtain ⟨hstatus, hresult, hmem⟩ := State.storeEncoded_fits hlen hfits
  rw [hmem]
  exact ⟨hstatus, hresult, fun j hj => Memory.read_writeBytes_add s.mem _ hj,
    Memory.sameOutside_writeBytes s.mem _ out⟩

end Sys2Proof.Machine
end

