-- ==== Sys2Proof/Proofs/DecodeStream.lean ====
section
/-! PROOFS. Decoding a stream (44_decode R201, R203, R204): the control region declares the size of the whole stream, a
decode fails exactly when the buffer is shorter than that, and it gives back the values that were written. -/

namespace Sys2Proof.Machine

/-! ### The size a control region declares -/

/-- The bytes that the codes of elements `i .. i+k-1` declare. -/
def declaredSize (ctrl : List Byte) (i k : Nat) : Nat :=
  ((List.range' i k).map fun j => width (codeOf ctrl j)).sum

/-- The bytes that a decode of `n` elements takes from a buffer: the control region, and what it declares. -/
def streamSize (bytes : List Byte) (n : Nat) : Nat := ceil4 n + declaredSize (bytes.take (ceil4 n)) 0 n

@[simp] theorem declaredSize_zero (ctrl : List Byte) (i : Nat) : declaredSize ctrl i 0 = 0 := rfl

@[simp] theorem declaredSize_succ (ctrl : List Byte) (i k : Nat) :
    declaredSize ctrl i (k + 1) = width (codeOf ctrl i) + declaredSize ctrl (i + 1) k := rfl

/-- The size in the words of 44_decode R203. -/
theorem streamSize_eq (bytes : List Byte) (n : Nat) :
    streamSize bytes n =
      ceil4 n + ((List.range n).map fun i => (codeOf (bytes.take (ceil4 n)) i).toNat + 1).sum := by
  rw [List.range_eq_range']
  rfl

theorem ceil4_le_streamSize (bytes : List Byte) (n : Nat) : ceil4 n ≤ streamSize bytes n :=
  Nat.le_add_right _ _

/-- Buffers with the same control region declare the same size. -/
theorem streamSize_congr {bs bs' : List Byte} {n : Nat} (h : bs.take (ceil4 n) = bs'.take (ceil4 n)) :
    streamSize bs n = streamSize bs' n := by
  rw [streamSize, streamSize, h]

/-! ### The element loop -/

/-- The loop fails at its first element or after it. -/
theorem decodeElements_succ_eq_none_iff (bytes ctrl : List Byte) (k i p : Nat) :
    decodeElements bytes ctrl (k + 1) i p = none ↔
      bytes.length < p + width (codeOf ctrl i) ∨
        decodeElements bytes ctrl k (i + 1) (p + width (codeOf ctrl i)) = none := by
  rw [← readValue_eq_none_iff, decodeElements]
  cases hread : readValue bytes p (codeOf ctrl i) with
  | none => simp
  | some r =>
    obtain ⟨v, w⟩ := r
    obtain rfl := (readValue_width hread).1
    cases hrest : decodeElements bytes ctrl k (i + 1) (p + width (codeOf ctrl i)) <;> simp [hrest]

theorem decodeElements_eq_none_iff {bytes ctrl : List Byte} {k i p : Nat} (hp : p ≤ bytes.length) :
    decodeElements bytes ctrl k i p = none ↔ bytes.length < p + declaredSize ctrl i k := by
  induction k generalizing i p with
  | zero => simpa [decodeElements] using hp
  | succ k ih =>
    rw [decodeElements_succ_eq_none_iff, declaredSize_succ, ← Nat.add_assoc]
    by_cases hfirst : bytes.length < p + width (codeOf ctrl i)
    · exact iff_of_true (.inl hfirst) (Nat.lt_add_right _ hfirst)
    · rw [or_iff_right hfirst, ih (Nat.not_lt.mp hfirst)]

theorem decodeElements_consumed {bytes ctrl : List Byte} {k i p q : Nat} {vs : List Word}
    (h : decodeElements bytes ctrl k i p = some (vs, q)) : q = p + declaredSize ctrl i k := by
  induction k generalizing i p vs with
  | zero =>
    cases h
    rfl
  | succ k ih =>
    obtain ⟨v, w, rest, hread, hrest, -⟩ := decodeElements_succ_eq_some h
    rw [ih hrest, (readValue_width hread).1, declaredSize_succ, Nat.add_assoc]

/-- Values written one after another, each in a width that holds it, are read back, if the control region names those
widths; what stands before and after them does not matter (42_data_stream R162, 30_encoding R100). -/
theorem decodeElements_writeValues {items : List (Word × LengthCode)} {ctrl : List Byte} {i : Nat}
    (hfit : ∀ x ∈ items, x.1.toNat < 256 ^ width x.2)
    (hcode : ∀ (j : Nat) (hj : j < items.length), codeOf ctrl (i + j) = items[j].2) (pre post : List Byte) :
    decodeElements (pre ++ (items.flatMap fun x => writeValue x.1 x.2) ++ post) ctrl items.length i pre.length =
      some (items.map Prod.fst, pre.length + (items.flatMap fun x => writeValue x.1 x.2).length) := by
  induction items generalizing i pre with
  | nil => rfl
  | cons x xs ih =>
    obtain ⟨v, c⟩ := x
    have hc : codeOf ctrl i = c := hcode 0 (Nat.zero_lt_succ _)
    have hv : v.toNat < 256 ^ width c := hfit (v, c) List.mem_cons_self
    have htail := ih (i := i + 1) (fun x hx => hfit x (List.mem_cons_of_mem _ hx))
      (fun j hj => by simpa [Nat.add_assoc, Nat.add_comm 1] using hcode (j + 1) (Nat.succ_lt_succ hj))
      (pre ++ writeValue v c)
    have hhead := readValue_writeValue hv pre ((xs.flatMap fun x => writeValue x.1 x.2) ++ post)
    simp only [List.append_assoc, List.length_append, length_writeValue] at htail hhead
    simp [decodeElements, hc, hhead, htail, Nat.add_assoc]

/-! ### The stream -/

/-- A buffer that holds the control region is decoded by the element loop. -/
theorem decodeStream_of_le {bytes : List Byte} {n : Nat} (hn : 0 < n) (h : ceil4 n ≤ bytes.length) :
    decodeStream bytes n = decodeElements bytes (bytes.take (ceil4 n)) n 0 (ceil4 n) := by
  rw [decodeStream, if_neg (Nat.ne_of_gt hn), if_neg (Nat.not_lt.mpr h)]

theorem decodeStream_of_lt {bytes : List Byte} {n : Nat} (hn : 0 < n) (h : bytes.length < ceil4 n) :
    decodeStream bytes n = none := by
  rw [decodeStream, if_neg (Nat.ne_of_gt hn), if_pos h]

theorem decodeStream_eq_none_iff {bytes : List Byte} {n : Nat} (hn : 0 < n) :
    decodeStream bytes n = none ↔ bytes.length < streamSize bytes n := by
  by_cases hctrl : bytes.length < ceil4 n
  · exact iff_of_true (decodeStream_of_lt hn hctrl) (Nat.lt_of_lt_of_le hctrl (ceil4_le_streamSize bytes n))
  · have hle := Nat.not_lt.mp hctrl
    rw [decodeStream_of_le hn hle, decodeElements_eq_none_iff hle, streamSize]

theorem decodeStream_consumed {bytes : List Byte} {n q : Nat} {vs : List Word} (hn : 0 < n)
    (h : decodeStream bytes n = some (vs, q)) : q = streamSize bytes n := by
  by_cases hctrl : bytes.length < ceil4 n
  · rw [decodeStream_of_lt hn hctrl] at h
    cases h
  · rw [decodeStream_of_le hn (Nat.not_lt.mp hctrl)] at h
    exact decodeElements_consumed h

/-- Settles O24: a buffer too short for its control region is too short for the stream, and any other is decoded by the
element loop. -/
theorem formatErrorExactly : Obligations.FormatErrorExactly := by
  intro bytes n hn need
  have hneed : need = streamSize bytes n := (streamSize_eq bytes n).symm
  rw [hneed, decodeStream_eq_none_iff hn]
  refine ⟨(or_iff_right_of_imp fun hctrl => ?_).symm, fun vals consumed h => ?_⟩
  · exact Nat.lt_of_lt_of_le hctrl (ceil4_le_streamSize bytes n)
  · exact ⟨(decodeStream_spec h).1, decodeStream_consumed hn h⟩

/-! ### Decoding an encoded sequence -/

theorem slotCode_of_lt {vals : List Word} {i : Nat} (hi : i < vals.length) :
    slotCode vals i = lengthCode vals[i] := by
  rw [slotCode, List.getElem?_eq_getElem hi]

/-- Each value with the code the encoder chooses for it. -/
def codedValues (vals : List Word) : List (Word × LengthCode) := vals.map fun v => (v, lengthCode v)

@[simp] theorem length_codedValues (vals : List Word) : (codedValues vals).length = vals.length :=
  List.length_map _

@[simp] theorem map_fst_codedValues (vals : List Word) : (codedValues vals).map Prod.fst = vals := by
  simp [codedValues, Function.comp_def]

theorem dataRegion_eq_flatMap_codedValues (vals : List Word) :
    dataRegion vals = (codedValues vals).flatMap fun x => writeValue x.1 x.2 := by
  induction vals with
  | nil => rfl
  | cons v vs ih => rw [dataRegion, ih, codedValues, codedValues, List.map_cons, List.flatMap_cons]

/-- A data region is decoded by its own control region. -/
theorem decodeElements_dataRegion (vals : List Word) (pre post : List Byte) :
    decodeElements (pre ++ dataRegion vals ++ post) (controlRegion vals) vals.length 0 pre.length =
      some (vals, pre.length + (dataRegion vals).length) := by
  have hfit : ∀ x ∈ codedValues vals, x.1.toNat < 256 ^ width x.2 := by
    simpa [codedValues] using fun v _ => lt_pow_lengthCode v
  have hcode : ∀ (j : Nat) (hj : j < (codedValues vals).length),
      codeOf (controlRegion vals) (0 + j) = (codedValues vals)[j].2 := by
    intro j hj
    have hj' : j < vals.length := length_codedValues vals ▸ hj
    simp [codedValues, codeOf_controlRegion vals hj', slotCode_of_lt hj']
  have hdecode := decodeElements_writeValues hfit hcode pre post
  rwa [length_codedValues, map_fst_codedValues, ← dataRegion_eq_flatMap_codedValues] at hdecode

/-- Decoding an encoded sequence gives it back, whatever follows it. -/
theorem decodeStream_encodeStream_append (vals : List Word) (extra : List Byte) :
    decodeStream (encodeStream vals ++ extra) vals.length = some (vals, (encodeStream vals).length) := by
  by_cases hne : vals = []
  · subst hne
    rfl
  · have hle : ceil4 vals.length ≤ (encodeStream vals ++ extra).length := by
      rw [List.length_append, length_encodeStream, Nat.add_assoc]
      exact Nat.le_add_right _ _
    have hctrl : (encodeStream vals ++ extra).take (ceil4 vals.length) = controlRegion vals := by
      rw [encodeStream, List.append_assoc]
      exact List.take_left' (length_controlRegion vals)
    rw [decodeStream_of_le (List.length_pos_iff.mpr hne) hle, hctrl, length_encodeStream,
      ← length_controlRegion, encodeStream, decodeElements_dataRegion]

theorem streamSize_encodeStream {vals : List Word} (hne : vals ≠ []) :
    streamSize (encodeStream vals) vals.length = (encodeStream vals).length := by
  have hdecode := decodeStream_encodeStream_append vals []
  rw [List.append_nil] at hdecode
  exact (decodeStream_consumed (List.length_pos_iff.mpr hne) hdecode).symm

/-- The last byte of a non-empty encoded sequence is one of its data region. -/
theorem ceil4_lt_length_encodeStream {vals : List Word} (hne : vals ≠ []) :
    ceil4 vals.length < (encodeStream vals).length := by
  have hpos := List.length_pos_iff.mpr hne
  have hdata := (length_dataRegion_bounds vals).1
  rw [length_encodeStream]
  omega

/-- Without its last byte an encoded sequence still has its control region, which declares the byte that is gone. -/
theorem decodeStream_dropLast_encodeStream {vals : List Word} (hne : vals ≠ []) :
    decodeStream (encodeStream vals).dropLast vals.length = none := by
  have hlt := ceil4_lt_length_encodeStream hne
  have hctrl : (encodeStream vals).dropLast.take (ceil4 vals.length) =
      (encodeStream vals).take (ceil4 vals.length) := by
    rw [List.dropLast_eq_take, List.take_take, Nat.min_eq_left (Nat.le_sub_one_of_lt hlt)]
  rw [decodeStream_eq_none_iff (List.length_pos_iff.mpr hne), streamSize_congr hctrl,
    streamSize_encodeStream hne, List.length_dropLast]
  omega

/-- Settles O25: the element loop reads the values one by one from the data region. -/
theorem decodeRecoversEncoded : Obligations.DecodeRecoversEncoded :=
  fun vals => ⟨decodeStream_encodeStream_append vals, decodeStream_dropLast_encodeStream⟩

end Sys2Proof.Machine
end

