-- ==== Sys2Proof/Proofs/DecodeCommand.lean ====
section
/-! PROOFS. The command DECODE (44_decode R202): what storing a decoded stream does to the registers and to memory, in
each of its two outcomes. -/

namespace Sys2Proof.Machine

/-- What both outcomes leave unchanged. -/
theorem State.storeDecoded_frame (s : State) (d : Option (List Word × Nat)) :
    (s.storeDecoded d).engine.pending = none ∧
      s.engine.SameOperands (s.storeDecoded d).engine ∧
      (s.storeDecoded d).engine.prev = s.engine.prev ∧
      s.SameSurroundings (s.storeDecoded d) := by
  obtain ⟨-, h⟩ | ⟨_, _, -, h⟩ := State.storeDecoded_cases s d <;>
    simp [h, Engine.SameOperands, State.SameSurroundings]

/-- A stream that fails: FORMAT_ERROR, and no byte written. -/
theorem State.storeDecoded_none (s : State) :
    (s.storeDecoded none).engine.status = 0x22#32 ∧ (s.storeDecoded none).engine.result = 0#64 ∧
      (s.storeDecoded none).mem = s.mem := by
  simp [State.storeDecoded]

/-- A decoded stream: success, with the bytes consumed, which fit RESULT (46_capacity R241), and the values from
DST_ADDR on. -/
theorem State.storeDecoded_some (s : State) (vals : List Word) {consumed : Nat} (h : consumed < 2 ^ 35) :
    (s.storeDecoded (some (vals, consumed))).engine.status = 0x02#32 ∧
      (s.storeDecoded (some (vals, consumed))).engine.result.toNat = consumed ∧
      (s.storeDecoded (some (vals, consumed))).mem = s.mem.writeInts s.engine.dstAddr.toNat vals :=
  ⟨statusWord_ok, (BitVec.toNat_ofNat _ _).trans (Nat.mod_eq_of_lt (by omega)), rfl⟩

/-- Settles O22: DECODE stores the decoded source bytes, which are COUNT many values when the decode succeeds. -/
theorem decodeCompletes : Obligations.DecodeCompletes := by
  intro s hadmits decoded
  have hexec : exec .decode s = .next (s.releaseCursors.storeDecoded decoded) := exec_decode_of_admits hadmits
  obtain ⟨hpending, hoperands, hprev, hsurroundings⟩ := State.storeDecoded_frame s.releaseCursors decoded
  refine ⟨_, hexec, hpending, hoperands, hprev, hsurroundings, fun hfail => ?_, fun vals consumed hvals => ?_⟩
  · rw [hfail]
    exact State.storeDecoded_none s.releaseCursors
  · obtain ⟨hlen, hconsumed⟩ := decodeStream_spec hvals
    have hlt := Nat.lt_of_le_of_lt hconsumed (maxCompressedBytes_lt s.engine.count.isLt)
    obtain ⟨hstatus, hresult, hmem⟩ := State.storeDecoded_some s.releaseCursors vals hlt
    rw [hvals, hmem, ← hlen]
    exact ⟨hstatus, hresult, Memory.readInts_writeInts s.mem _ vals,
      Memory.sameOutside_writeInts s.mem _ vals⟩

end Sys2Proof.Machine
end

