-- ==== Sys2Proof/Proofs/Delta.lean ====
section
/-! PROOFS. The delta passes (45_delta R221, R227) element by element, the two delta commands, and their round trip
(R228): accumulating undoes the differences, so decoding the bytes that ENCODE_DELTA wrote gives the array back. -/

namespace Sys2Proof.Machine

/-! ### The delta passes -/

/-- Each difference is taken from the original value before it, the first from the seed. -/
theorem getD_deltaTransform (prev : Word) {vals : List Word} {i : Nat} (hi : i < vals.length) :
    (deltaTransform prev vals).getD i 0#32 =
      vals.getD i 0#32 - (if i = 0 then prev else vals.getD (i - 1) 0#32) := by
  induction vals generalizing prev i with
  | nil => cases hi
  | cons v vs ih =>
    cases i with
    | zero => rfl
    | succ i =>
      rw [deltaTransform, List.getD_cons_succ, List.getD_cons_succ, ih v (Nat.lt_of_succ_lt_succ hi)]
      cases i <;> rfl

/-- Each sum is the sum before it, the first the seed, plus one delta. -/
theorem getD_deltaAccumulate (prev : Word) {ds : List Word} {i : Nat} (hi : i < ds.length) :
    (deltaAccumulate prev ds).getD i 0#32 =
      (if i = 0 then prev else (deltaAccumulate prev ds).getD (i - 1) 0#32) + ds.getD i 0#32 := by
  induction ds generalizing prev i with
  | nil => cases hi
  | cons d ds ih =>
    cases i with
    | zero => rfl
    | succ i =>
      rw [deltaAccumulate, List.getD_cons_succ, List.getD_cons_succ, ih (prev + d) (Nat.lt_of_succ_lt_succ hi)]
      cases i <;> rfl

/-- Both passes carry the same original value from one element to the next, so each sum is that value. -/
theorem deltaAccumulate_deltaTransform (prev : Word) (vals : List Word) :
    deltaAccumulate prev (deltaTransform prev vals) = vals := by
  induction vals generalizing prev with
  | nil => rfl
  | cons v vs ih =>
    have hsum : prev + (v - prev) = v := by rw [BitVec.add_comm, BitVec.sub_add_cancel]
    rw [deltaTransform, deltaAccumulate, hsum, ih]

/-! ### ENCODE_DELTA -/

/-- Past the shared checks ENCODE_DELTA stores what ENCODE would store for the differences. -/
theorem exec_encodeDelta_eq {s : State} (h : s.Admits s.engine.encodeSource s.engine.encodeDest) :
    exec .encodeDelta s =
      .next (s.releaseCursors.storeEncoded (deltaTransform s.engine.seed s.sourceInts)).releasePrev :=
  exec_encodeDelta_of_admits h

@[simp] theorem State.length_sourceInts (s : State) : s.sourceInts.length = s.engine.count.toNat :=
  Memory.length_readInts _ _ _

theorem length_deltaTransform_sourceInts (s : State) (seed : Word) :
    (deltaTransform seed s.sourceInts).length = s.engine.count.toNat := by
  rw [length_deltaTransform, State.length_sourceInts]

/-- ENCODE_DELTA with room for the capacity bound: success, with the encoded differences from DST_ADDR on. -/
theorem exec_encodeDelta_fits {s t : State} (hadmits : s.Admits s.engine.encodeSource s.engine.encodeDest)
    (hroom : maxCompressedBytes s.engine.count.toNat ≤ s.engine.dstLen.toNat)
    (hexec : exec .encodeDelta s = .next t) :
    t.engine.status = 0x02#32 ∧
      t.engine.result.toNat = (encodeStream (deltaTransform s.engine.seed s.sourceInts)).length ∧
      t.mem = s.mem.writeBytes s.engine.dstAddr.toNat
        (encodeStream (deltaTransform s.engine.seed s.sourceInts)) := by
  rw [exec_encodeDelta_eq hadmits] at hexec
  cases hexec
  exact State.storeEncoded_fits (s := s.releaseCursors)
    (length_deltaTransform_sourceInts s s.engine.seed) hroom

/-- What both outcomes of ENCODE_DELTA leave unchanged. -/
theorem exec_encodeDelta_frame {s t : State} (hadmits : s.Admits s.engine.encodeSource s.engine.encodeDest)
    (hexec : exec .encodeDelta s = .next t) :
    t.engine.pending = none ∧ s.engine.SameOperands t.engine ∧ s.SameSurroundings t := by
  rw [exec_encodeDelta_eq hadmits] at hexec
  cases hexec
  obtain ⟨hpending, hoperands, -, hsurroundings⟩ :=
    State.storeEncoded_frame s.releaseCursors (deltaTransform s.engine.seed s.sourceInts)
  exact ⟨hpending, hoperands, hsurroundings⟩

/-- Settles O18: ENCODE_DELTA stores the encoded differences of the source integers, which are COUNT many, and the
capacity check decides between the two outcomes. -/
theorem encodeDeltaCompletes : Obligations.EncodeDeltaCompletes := by
  intro s hadmits vals cap
  have hexec := exec_encodeDelta_eq hadmits
  obtain ⟨hpending, hoperands, hsurroundings⟩ := exec_encodeDelta_frame hadmits hexec
  refine ⟨deltaTransform s.engine.seed vals, length_deltaTransform_sourceInts s _, fun i hi => ?_,
    _, hexec, hpending, hoperands, hsurroundings,
    fun hsmall => State.storeEncoded_tooSmall _ hsmall, fun hroom => ?_⟩
  · exact getD_deltaTransform s.engine.seed (length_deltaTransform s.engine.seed vals ▸ hi)
  · obtain ⟨hstatus, hresult, hmem⟩ := exec_encodeDelta_fits hadmits hroom hexec
    rw [hmem]
    exact ⟨hstatus, hresult, fun j hj => Memory.read_writeBytes_add s.mem _ hj,
      Memory.sameOutside_writeBytes s.mem _ _⟩

/-! ### DECODE_DELTA -/

/-- A decoded stream with its deltas replaced by their prefix sums. -/
def accumulated (seed : Word) (decoded : Option (List Word × Nat)) : Option (List Word × Nat) :=
  decoded.map fun r => (deltaAccumulate seed r.1, r.2)

@[simp] theorem accumulated_none (seed : Word) : accumulated seed none = none := rfl

@[simp] theorem accumulated_some (seed : Word) (deltas : List Word) (consumed : Nat) :
    accumulated seed (some (deltas, consumed)) = some (deltaAccumulate seed deltas, consumed) := rfl

/-- Past the shared checks DECODE_DELTA stores what DECODE would store for the prefix sums. -/
theorem exec_decodeDelta_eq {s : State} (h : s.Admits s.engine.decodeSource s.engine.decodeDest) :
    exec .decodeDelta s =
      .next (s.releaseCursors.storeDecoded (accumulated s.engine.seed s.sourceDecoded)).releasePrev :=
  exec_decodeDelta_of_admits h

/-- DECODE_DELTA of a stream that decodes: success, with the prefix sums as an array at DST_ADDR. -/
theorem exec_decodeDelta_decodes {s t : State} {deltas : List Word} {consumed : Nat}
    (hadmits : s.Admits s.engine.decodeSource s.engine.decodeDest)
    (hdecoded : s.sourceDecoded = some (deltas, consumed)) (hexec : exec .decodeDelta s = .next t) :
    t.engine.status = 0x02#32 ∧ t.engine.result.toNat = consumed ∧
      t.mem = s.mem.writeInts s.engine.dstAddr.toNat (deltaAccumulate s.engine.seed deltas) := by
  rw [exec_decodeDelta_eq hadmits, hdecoded, accumulated_some] at hexec
  cases hexec
  have hlt := Nat.lt_of_le_of_lt (State.sourceDecoded_spec hdecoded).2
    (maxCompressedBytes_lt s.engine.count.isLt)
  exact State.storeDecoded_some s.releaseCursors _ hlt

/-- Settles O23: DECODE_DELTA stores the prefix sums of the decoded deltas, one for each, and fails when the decode
does. -/
theorem decodeDeltaCompletes : Obligations.DecodeDeltaCompletes := by
  intro s hadmits decoded
  have hexec := exec_decodeDelta_eq hadmits
  obtain ⟨hpending, hoperands, -, hsurroundings⟩ :=
    State.storeDecoded_frame s.releaseCursors (accumulated s.engine.seed s.sourceDecoded)
  refine ⟨_, hexec, hpending, hoperands, hsurroundings, fun hfail => ?_, fun deltas consumed hdeltas => ?_⟩
  · have hsource : s.sourceDecoded = none := hfail
    rw [hsource, accumulated_none]
    exact State.storeDecoded_none s.releaseCursors
  · obtain ⟨hstatus, hresult, hmem⟩ := exec_decodeDelta_decodes hadmits hdeltas hexec
    have hlen : (deltaAccumulate s.engine.seed deltas).length = s.engine.count.toNat := by
      rw [length_deltaAccumulate, (decodeStream_spec hdeltas).1]
    rw [hmem, ← hlen]
    exact ⟨_, rfl, fun i hi => getD_deltaAccumulate _ (length_deltaAccumulate _ deltas ▸ hi), hstatus, hresult,
      Memory.readInts_writeInts s.mem _ _, Memory.sameOutside_writeInts s.mem _ _⟩

/-! ### The round trip -/

/-- Source bytes that are an encoded sequence of COUNT values decode to it. -/
theorem State.sourceDecoded_of_encodeStream {s : State} {vals : List Word} {m : Memory}
    (hmem : s.mem = m.writeBytes s.engine.srcAddr.toNat (encodeStream vals))
    (hsrcLen : s.engine.srcLen.toNat = (encodeStream vals).length)
    (hcount : s.engine.count.toNat = vals.length) :
    s.sourceDecoded = some (vals, (encodeStream vals).length) := by
  have hdecode := decodeStream_encodeStream_append vals []
  rw [State.sourceDecoded, State.sourceBytes, hmem, hsrcLen, Memory.readBytes_writeBytes, hcount]
  rwa [List.append_nil] at hdecode

/-- Settles O29: the bytes ENCODE_DELTA wrote decode to the differences, whose prefix sums are the source integers. -/
theorem deltaRoundTrip : Obligations.DeltaRoundTrip := by
  refine ⟨fun vals seed => deltaAccumulate_deltaTransform seed vals, ?_⟩
  intro s t u addr hadmits hroom hexec hu hadmits'
  obtain ⟨-, hresult, hmem⟩ := exec_encodeDelta_fits hadmits hroom hexec
  obtain ⟨-, ⟨-, hcount, hseed, -⟩, -⟩ := exec_encodeDelta_frame hadmits hexec
  have hdecoded : u.sourceDecoded = some (deltaTransform s.engine.seed s.sourceInts, t.engine.result.toNat) := by
    subst hu
    rw [hresult]
    exact State.sourceDecoded_of_encodeStream hmem hresult
      (hcount ▸ (length_deltaTransform_sourceInts s s.engine.seed).symm)
  have hexec' := exec_decodeDelta_eq hadmits'
  obtain ⟨hstatus, hresult', hmem'⟩ := exec_decodeDelta_decodes hadmits' hdecoded hexec'
  refine ⟨_, hexec', hstatus, BitVec.eq_of_toNat_eq hresult', ?_⟩
  have hsums : deltaAccumulate u.engine.seed (deltaTransform s.engine.seed s.sourceInts) = s.sourceInts := by
    rw [show u.engine.seed = s.engine.seed from hu ▸ hseed, deltaAccumulate_deltaTransform]
  have hread := Memory.readInts_writeInts u.mem addr.toNat s.sourceInts
  rw [State.length_sourceInts] at hread
  rwa [hmem', hsums, show u.engine.dstAddr = addr from hu ▸ rfl]

end Sys2Proof.Machine
end

