-- ==== Sys2Proof/Proofs/Capacity.lean ====
section
/-! PROOFS. The command CAPACITY (46_capacity R240, R241): it completes with no check, and RESULT holds the capacity
bound of COUNT values without wrapping. -/

namespace Sys2Proof.Machine

theorem exec_capacity_eq (s : State) :
    exec .capacity s = .next (s.completeOk (maxCompressedBytes s.engine.count.toNat)) := rfl

/-- The capacity bound of any COUNT fits RESULT (46_capacity R241). -/
theorem toNat_ofNat_maxCompressedBytes (count : Word) :
    (BitVec.ofNat 64 (maxCompressedBytes count.toNat)).toNat = maxCompressedBytes count.toNat := by
  have hlt := maxCompressedBytes_lt count.isLt
  exact (BitVec.toNat_ofNat _ _).trans (Nat.mod_eq_of_lt (by omega))

/-- Settles O9: the completion at the capacity bound of COUNT, which RESULT holds exactly. -/
theorem capacityCompletes : Obligations.CapacityCompletes := by
  refine ⟨rfl, fun s => ⟨_, toNat_ofNat_maxCompressedBytes s.engine.count, ?_⟩⟩
  rw [exec_capacity_eq, State.completeOk_eq]

end Sys2Proof.Machine
end

