-- ==== Sys2Proof/Proofs/Exceptions.lean ====
section
/-! PROOFS. The exceptions (60_exceptions R250 to R257): which words are illegal and how an engine completes one, the
region check, and the STATUS each command ends with. -/

namespace Sys2Proof

/-! ### Illegal words -/

/-- OP names no command exactly when it is 0x0 or 0x6..0xF (30_encoding R92). -/
theorem decodeOp_isOk_eq_false_iff {op : BitVec 4} :
    (decodeOp op).isOk = false ↔ op = 0x0#4 ∨ 0x6 ≤ op.toNat := by
  revert op
  decide

namespace Machine

theorem classify_eq_illegal_iff {w : Word} :
    classify w = .illegal ↔
      (cmdFields w).op = 0x0#4 ∨ 0x6 ≤ (cmdFields w).op.toNat ∨ (cmdFields w).res ≠ 0#28 := by
  rw [← or_assoc, ← decodeOp_isOk_eq_false_iff, classify, decode]
  by_cases hres : (cmdFields w).res = 0#28
  · rw [if_pos hres]
    cases decodeOp (cmdFields w).op <;> simp [hres, Except.isOk, Except.toBool]
  · simp [hres]

/-! ### An engine's turn -/

section
variable {s u : State} {k : Nat} {e : Engine} (h : s.EngineMoves k e u)
include h

theorem State.EngineMoves.step_eq : step s = engineTurn k u := by
  obtain ⟨_, hagent, -, rfl⟩ := h
  simp only [step, hagent]

theorem State.EngineMoves.engineAt_eq : u.engineAt k = some e := by
  obtain ⟨_, -, he, rfl⟩ := h
  exact he

end

/-- Replacing the engine in focus, between the two swaps of a turn, replaces engine `k`. -/
theorem State.swap_engine_swap {s : State} {k : Nat} {e : Engine} (h : s.engineAt k = some e) (d : Engine) :
    State.swap { s.swap k with engine := d } k = s.setEngineAt k d := by
  cases k with
  | zero => rfl
  | succ k =>
    rw [State.engineAt_succ] at h
    obtain ⟨hk, -⟩ := List.getElem?_eq_some_iff.mp h
    simp [State.swap, State.setEngineAt, hk]

/-- An engine whose pending word is illegal raises ILLEGAL_CMD on its turn, and nothing else changes. -/
theorem engineTurn_of_illegal {s : State} {k : Nat} {e : Engine} (he : s.engineAt k = some e)
    (hpending : e.pending = some .illegal) :
    engineTurn k s = .next (s.setEngineAt k (e.complete (errorCode .illegalCmd) 0#64)) := by
  have hengine := State.swap_engine he
  have hcompletion : completion (s.swap k) = .next (s.swap k).completeIllegal := by
    simp only [completion, hengine, hpending]
  rw [engineTurn, hcompletion, ← State.swap_engine_swap he, ← hengine]
  rfl

theorem Engine.complete_error_eq (e : Engine) (c : ErrorCode) :
    e.complete (errorCode c) 0#64 =
      { e with status := statusWord false true (errorCode c), result := 0#64, pending := none } := rfl

/-- Settles O11: an illegal word has an undefined OP or a reserved bit set, and the turn of an engine that holds one
is the completion with ILLEGAL_CMD. -/
theorem illegalCommandCompletes : Obligations.IllegalCommandCompletes := by
  refine ⟨fun w => classify_eq_illegal_iff, fun s u k e hmoves hpending => ?_⟩
  rw [hmoves.step_eq, engineTurn_of_illegal hmoves.engineAt_eq hpending, Engine.complete_error_eq,
    statusWord_error]

/-! ### The region check -/

theorem State.guarded_of_not_inMemory {s : State} {src dst : Region} (hcount : s.engine.count ≠ 0#32)
    (h : ¬(src.InMemory s.platform.memSize ∧ dst.InMemory s.platform.memSize)) (run : State → State) :
    s.guarded src dst run = .next (s.raiseError .accessFault) := by
  have hok : (src.ok s.platform.memSize && dst.ok s.platform.memSize) = false := by
    rwa [← Bool.not_eq_true, Bool.and_eq_true, Region.ok_iff, Region.ok_iff]
  rw [State.guarded, if_neg hcount, if_pos hok]

/-- Settles O12: the region check comes right after the one on COUNT, before anything that reads a byte. -/
theorem accessFaultCompletes : Obligations.AccessFaultCompletes := by
  intro i s src dst hregions hcount hregion
  obtain ⟨run, hrun⟩ := exec_eq_guarded hregions
  rw [hrun, State.guarded_of_not_inMemory hcount hregion, State.raiseError, Engine.complete_error_eq,
    statusWord_error]

/-! ### The STATUS of a completion -/

/-- A memory command that completes ends with success on an empty sequence, with ACCESS_FAULT on a region past
MEM_SIZE, and else with the STATUS of its run. -/
theorem State.guarded_status {s t : State} {src dst : Region} {run : State → State}
    (h : s.guarded src dst run = .next t) :
    t.engine.status =
      if s.engine.count = 0#32 then 0x02#32
      else if src.InMemory s.platform.memSize ∧ dst.InMemory s.platform.memSize then
        (run s.releaseCursors).engine.status
      else 0x32#32 := by
  simp only [Region.InMemory, ← Region.ok_iff]
  obtain ⟨hcount, he⟩ | ⟨hcount, hok, he⟩ | ⟨-, -, -, he⟩ | ⟨-, -, -, -, he⟩ | ⟨⟨hcount, hsrc, hdst, -⟩, he⟩ :=
    State.guarded_cases s src dst run <;> rw [he] at h <;> cases h
  · rw [if_pos hcount, State.completeOk_engine, Engine.complete_status, statusWord_ok]
  · rw [if_neg hcount, if_neg hok, State.raiseError_engine, Engine.complete_status, statusWord_error]
  · rw [if_neg hcount, if_pos ⟨hsrc, hdst⟩]

theorem State.storeEncoded_status (s : State) (vals : List Word) :
    (s.storeEncoded vals).engine.status =
      if s.engine.dstLen.toNat < maxCompressedBytes s.engine.count.toNat then 0x12#32 else 0x02#32 := by
  obtain ⟨hsmall, he⟩ | ⟨hroom, he⟩ := State.storeEncoded_cases s vals
  · simp [he, hsmall]
  · simp [he, Nat.not_lt.mpr hroom]

theorem State.storeDecoded_status (s : State) (d : Option (List Word × Nat)) :
    (s.storeDecoded d).engine.status = if d = none then 0x22#32 else 0x02#32 := by
  obtain ⟨rfl, he⟩ | ⟨vals, consumed, rfl, he⟩ := State.storeDecoded_cases s d
  · simp [he]
  · simp [he]

/-- Both encode forms end with the same STATUS: the values to encode do not decide it. -/
theorem exec_status_of_encode {i : Instr} {s t : State} (hi : i = .encode ∨ i = .encodeDelta)
    (h : exec i s = .next t) :
    t.engine.status =
      if s.engine.count = 0#32 then 0x02#32
      else if s.engine.encodeSource.InMemory s.platform.memSize ∧
          s.engine.encodeDest.InMemory s.platform.memSize then
        if s.engine.dstLen.toNat < maxCompressedBytes s.engine.count.toNat then 0x12#32 else 0x02#32
      else 0x32#32 := by
  obtain rfl | rfl := hi
  · rw [exec, execEncode] at h
    rw [State.guarded_status h, State.storeEncoded_status]
    rfl
  · rw [exec, execEncodeDelta] at h
    rw [State.guarded_status h, State.releasePrev_engine, State.storeEncoded_status]
    rfl

/-- Both decode forms end with the same STATUS: what is done to the decoded values does not decide it. -/
theorem exec_status_of_decode {i : Instr} {s t : State} (hi : i = .decode ∨ i = .decodeDelta)
    (h : exec i s = .next t) :
    t.engine.status =
      if s.engine.count = 0#32 then 0x02#32
      else if s.engine.decodeSource.InMemory s.platform.memSize ∧
          s.engine.decodeDest.InMemory s.platform.memSize then
        if s.sourceDecoded = none then 0x22#32 else 0x02#32
      else 0x32#32 := by
  obtain rfl | rfl := hi
  · rw [exec, execDecode] at h
    rw [State.guarded_status h, State.storeDecoded_status]
    rfl
  · rw [exec, execDecodeDelta] at h
    rw [State.guarded_status h, State.releasePrev_engine, State.storeDecoded_status]
    simp only [Option.map_eq_none_iff]
    rfl

/-- The checks in their order: each code of a STATUS they decide has a condition that excludes the others. -/
theorem status_of_checks {status code : Word} {empty inMemory fails : Prop} [Decidable empty] [Decidable inMemory]
    [Decidable fails] (hcode : code = 0x12#32 ∨ code = 0x22#32)
    (h : status = if empty then 0x02#32 else if inMemory then if fails then code else 0x02#32 else 0x32#32) :
    (status = code ↔ ¬empty ∧ inMemory ∧ fails) ∧ (status = 0x32#32 ↔ ¬empty ∧ ¬inMemory) ∧
      (status = 0x02#32 ∨ status = code ∨ status = 0x32#32) := by
  have hne : code ≠ 0x02#32 ∧ code ≠ 0x32#32 := by
    obtain rfl | rfl := hcode <;> decide
  obtain ⟨hok, hfault⟩ := hne
  by_cases hempty : empty
  · simp [h, hempty, hok.symm]
  by_cases hmem : inMemory
  · by_cases hfails : fails
    · simp [h, hempty, hmem, hfails, hfault]
    · simp [h, hmem, hfails, hok.symm]
  · simp [h, hempty, hmem, hfault.symm]

/-- A command has one pair of regions, so the region check fails on some pair exactly when it fails on that one. -/
theorem Engine.exists_regions_not_inMemory_iff {e : Engine} {i : Instr} {src dst : Region} {memSize : Nat}
    (h : e.regions i = some (src, dst)) :
    (∃ a b, e.regions i = some (a, b) ∧ e.count ≠ 0#32 ∧ ¬(a.InMemory memSize ∧ b.InMemory memSize)) ↔
      e.count ≠ 0#32 ∧ ¬(src.InMemory memSize ∧ dst.InMemory memSize) := by
  constructor
  · rintro ⟨a, b, hab, hfails⟩
    cases h.symm.trans hab
    exact hfails
  · exact fun hfails => ⟨src, dst, h, hfails⟩

/-- Settles O15: CAPACITY ends with success, and the ordered checks decide the STATUS of a memory command. -/
theorem errorCodeExactly : Obligations.ErrorCodeExactly := by
  intro i s t hexec
  cases i with
  | capacity =>
    rw [exec_capacity_eq] at hexec
    cases hexec
    simp [Engine.regions]
  | encode | encodeDelta =>
    obtain ⟨hcode, hfault, hstatus⟩ := status_of_checks (.inl rfl) (exec_status_of_encode (by simp) hexec)
    refine ⟨by simpa [and_assoc] using hcode, ?_, hfault.trans (Engine.exists_regions_not_inMemory_iff rfl).symm, ?_⟩
    all_goals obtain h | h | h := hstatus <;> simp [h]
  | decode | decodeDelta =>
    obtain ⟨hcode, hfault, hstatus⟩ := status_of_checks (.inr rfl) (exec_status_of_decode (by simp) hexec)
    refine ⟨?_, by simpa [and_assoc, State.sourceDecoded, State.sourceBytes] using hcode,
      hfault.trans (Engine.exists_regions_not_inMemory_iff rfl).symm, ?_⟩
    all_goals obtain h | h | h := hstatus <;> simp [h]

end Machine
end Sys2Proof
end

