-- ==== Sys2Proof/Proofs/ResetAndHazards.lean ====
section
/-! PROOFS. Reset and hazards (70_reset_and_hazards R282, R286 to R289): the window at power-on, host writes to it, and
the overlaps of regions that refuse a command or a host access to memory. -/

namespace Sys2Proof.Machine

/-! ### The window at power-on -/

theorem Engine.readReg_powerOn (r : Reg) : Engine.powerOn.readReg r = 0#32 := by
  cases r <;> rfl

/-- Settles O38: the engine of `State.reset` is an engine at power-on. -/
theorem powerOnRegisters : Obligations.PowerOnRegisters :=
  ⟨Engine.readReg_powerOn, rfl, rfl⟩

/-! ### Words of the window -/

@[simp] theorem loWord_setLo (v : DWord) (w : Word) : loWord (setLo v w) = w := loWord_hiLo _ _
@[simp] theorem hiWord_setLo (v : DWord) (w : Word) : hiWord (setLo v w) = hiWord v := hiWord_hiLo _ _
@[simp] theorem loWord_setHi (v : DWord) (w : Word) : loWord (setHi v w) = loWord v := loWord_hiLo _ _
@[simp] theorem hiWord_setHi (v : DWord) (w : Word) : hiWord (setHi v w) = w := hiWord_hiLo _ _

theorem Engine.storeReg_of_not_writable {r : Reg} (h : r.writable = false) (e : Engine) (w : Word) :
    e.storeReg r w = e := by
  cases r with
  | cmd | status | resultLo | resultHi | reserved38 | reserved3C => rfl
  | count | seed | srcAddrLo | srcAddrHi | srcLenLo | srcLenHi | dstAddrLo | dstAddrHi | dstLenLo | dstLenHi =>
    cases h

theorem Engine.readReg_storeReg_self {r : Reg} (h : r.writable = true) (e : Engine) (w : Word) :
    (e.storeReg r w).readReg r = w := by
  cases r with
  | cmd | status | resultLo | resultHi | reserved38 | reserved3C => cases h
  | count | seed => rfl
  | srcAddrLo | srcLenLo | dstAddrLo | dstLenLo => exact loWord_setLo _ _
  | srcAddrHi | srcLenHi | dstAddrHi | dstLenHi => exact hiWord_setHi _ _

/-- A store leaves every other word, the other half of its 64-bit register included. -/
theorem Engine.readReg_storeReg_of_ne {q r : Reg} (h : q ≠ r) (e : Engine) (w : Word) :
    (e.storeReg r w).readReg q = e.readReg q := by
  cases r with
  | cmd | status | resultLo | resultHi | reserved38 | reserved3C => rfl
  | count | seed | srcAddrLo | srcAddrHi | srcLenLo | srcLenHi | dstAddrLo | dstAddrHi | dstLenLo | dstLenHi =>
    cases q <;> simp [Engine.storeReg, Engine.readReg] at h ⊢

/-! ### Host writes to the window -/

theorem State.setEngineAt_self {s : State} {k : Nat} {e : Engine} (h : s.engineAt k = some e) :
    s.setEngineAt k e = s := by
  cases k with
  | zero =>
    cases h
    rfl
  | succ k =>
    rw [State.engineAt_succ] at h
    obtain ⟨hk, rfl⟩ := List.getElem?_eq_some_iff.mp h
    simp [State.setEngineAt]

theorem State.writePort_of_busy {s : State} {k : Nat} {e : Engine} (he : s.engineAt k = some e)
    (hbusy : e.busy = true) (r : Reg) (w : Word) : s.writePort k r w = .next s := by
  simp [State.writePort, he, hbusy]

theorem State.writePort_of_idle {s : State} {k : Nat} {e : Engine} {r : Reg} (he : s.engineAt k = some e)
    (hidle : e.busy = false) (hr : r ≠ .cmd) (w : Word) :
    s.writePort k r w = .next (s.setEngineAt k (e.storeReg r w)) := by
  simp [State.writePort, he, hidle, hr]

theorem State.HostMoves.step_wr {s u : State} {word k : Nat} {w : Word} {r : Reg}
    (hmoves : s.HostMoves (.wr word w) u) (hport : s.portTarget (4 * word) = some (k, r)) :
    step s = u.writePort k r w := by
  rw [← hmoves.portTarget_eq] at hport
  rw [hmoves.step_eq, State.hostAct, State.hostWrite_of_portTarget w hport]

/-- Settles O5: a busy engine ignores the write, and an idle one stores the word, which for a word that is not
writable stores nothing. -/
theorem hostRegisterWrite : Obligations.HostRegisterWrite := by
  intro s u word k w r e hmoves hport he
  rw [hmoves.step_wr hport]
  rw [← hmoves.engineAt_eq] at he
  refine ⟨fun hbusy => State.writePort_of_busy he hbusy r w, fun hidle hrw => ?_, fun hidle hro hr => ?_⟩
  · have hr : r ≠ .cmd := by
      rintro rfl
      cases hrw
    exact ⟨e.storeReg r w, State.writePort_of_idle he hidle hr w, Engine.readReg_storeReg_self hrw e w,
      fun q hq => Engine.readReg_storeReg_of_ne hq e w, by simp⟩
  · rw [State.writePort_of_idle he hidle hr, Engine.storeReg_of_not_writable hro, State.setEngineAt_self he]

/-! ### Regions that share an address -/

theorem Region.contains_iff {r : Region} {a : Nat} :
    r.contains a = true ↔ r.base ≤ a ∧ a < r.base + r.len := by simp [Region.contains]

/-- Two regions that overlap share the higher of their bases. -/
theorem Region.overlaps_iff {r t : Region} :
    r.overlaps t = true ↔ ∃ a, r.contains a = true ∧ t.contains a = true := by
  simp only [Region.overlaps, Bool.and_eq_true, decide_eq_true_eq, Region.contains_iff]
  constructor
  · intro h
    exact ⟨max r.base t.base, by omega⟩
  · rintro ⟨a, h⟩
    omega

/-- The overlap check is the third: the empty sequence and a region past MEM_SIZE come before it. -/
theorem State.guarded_eq_overlappingRegions_iff {s : State} {src dst : Region} {run : State → State} :
    s.guarded src dst run = .refused .overlappingRegions ↔
      s.engine.count ≠ 0#32 ∧ (src.ok s.platform.memSize = true ∧ dst.ok s.platform.memSize = true) ∧
        src.overlaps dst = true := by
  obtain ⟨hcount, he⟩ | ⟨-, hok, he⟩ | ⟨hcount, hok, hoverlap, he⟩ | ⟨-, -, hdisjoint, -, he⟩ |
    ⟨⟨-, -, -, hdisjoint, -⟩, he⟩ := State.guarded_cases s src dst run
  · simp [he, hcount]
  · simp [he, hok]
  · simp [he, hcount, hok, hoverlap]
  · simp [he, hdisjoint]
  · simp [he, hdisjoint]

/-- Settles O13: a command with regions runs under the shared checks, and the overlap check looks for a shared
address. -/
theorem overlapRefusedExactly : Obligations.OverlapRefusedExactly := by
  intro i s src dst hregions
  obtain ⟨run, hrun⟩ := exec_eq_guarded hregions
  rw [hrun, State.guarded_eq_overlappingRegions_iff, Region.ok_iff, Region.ok_iff, Region.overlaps_iff, and_assoc]

/-! ### Host accesses to memory -/

section
variable {s u : State} {a : HostAction} (h : s.HostMoves a u)
include h

theorem State.HostMoves.mem_eq : u.mem = s.mem := by
  obtain ⟨_, _, -, -, rfl⟩ := h
  rfl

theorem State.HostMoves.platform_eq : u.platform = s.platform := by
  obtain ⟨_, _, -, -, rfl⟩ := h
  rfl

theorem State.HostMoves.inFlight_eq : u.inFlight = s.inFlight := by
  obtain ⟨_, _, -, -, rfl⟩ := h
  rfl

end

/-- A host write may touch no region of a command in flight. -/
theorem State.writeHazard_iff {s : State} {r : Region} :
    s.writeHazard r = true ↔
      ∃ x ∈ s.inFlight, ∃ a, r.contains a = true ∧ (x.1.contains a = true ∨ x.2.contains a = true) := by
  simp only [State.writeHazard, List.any_eq_true, Bool.or_eq_true, Region.overlaps_iff, ← exists_or, ← and_or_left]

/-- A host read may touch a source, but no destination. -/
theorem State.readHazard_iff {s : State} {r : Region} :
    s.readHazard r = true ↔ ∃ x ∈ s.inFlight, ∃ a, r.contains a = true ∧ x.2.contains a = true := by
  simp only [State.readHazard, List.any_eq_true, Region.overlaps_iff]

/-- A write of bytes in memory, outside every device window, is refused exactly for a hazard. -/
theorem State.hostMemWrite_eq {s : State} {addr : Nat} {bytes : List Byte}
    (hmem : addr + bytes.length ≤ s.platform.memSize)
    (hdevice : s.platform.touchesDevice ⟨addr, bytes.length⟩ = false) :
    s.hostMemWrite addr bytes =
      if s.writeHazard ⟨addr, bytes.length⟩ = true then .refused .hostHazard
      else .next { s with mem := s.mem.writeBytes addr bytes } := by
  simp [State.hostMemWrite, Region.ok, hmem, hdevice]

/-- A read of bytes in memory, outside every device window, is refused exactly for a hazard. -/
theorem State.hostMemRead_eq {s : State} {addr n : Nat} (hmem : addr + n ≤ s.platform.memSize)
    (hdevice : s.platform.touchesDevice ⟨addr, n⟩ = false) :
    s.hostMemRead addr n =
      if s.readHazard ⟨addr, n⟩ = true then .refused .hostHazard
      else .next (s.record (.bytes (s.mem.readBytes addr n))) := by
  simp [State.hostMemRead, Region.ok, hmem, hdevice]

/-- Settles O47: past the checks on memory and device windows, an access is refused exactly for a hazard, which is an
address shared with a region in flight, or for a read with a destination in flight. -/
theorem hostHazardRefused : Obligations.HostHazardRefused := by
  refine ⟨fun s u addr bytes src dst hmoves hmem hdevice hflight htouch => ?_,
    fun s u addr n src dst hmoves hmem hdevice hflight htouch => ?_,
    fun s u addr n hmoves hmem hdevice hclear => ?_⟩
  all_goals
    rw [← hmoves.platform_eq] at hmem hdevice
    rw [hmoves.step_eq, State.hostAct]
  · rw [← hmoves.inFlight_eq] at hflight
    rw [State.hostMemWrite_eq hmem hdevice, if_pos (State.writeHazard_iff.mpr ⟨_, hflight, htouch⟩)]
  · rw [← hmoves.inFlight_eq] at hflight
    rw [State.hostMemRead_eq hmem hdevice, if_pos (State.readHazard_iff.mpr ⟨_, hflight, htouch⟩)]
  · have hsafe : ¬u.readHazard ⟨addr, n⟩ = true := by
      rw [State.readHazard_iff, hmoves.inFlight_eq]
      rintro ⟨x, hx, a, hin, hdst⟩
      cases (hclear x hx a hin).symm.trans hdst
    rw [State.hostMemRead_eq hmem hdevice, if_neg hsafe, ← hmoves.mem_eq, State.record]

end Sys2Proof.Machine
end

