-- ==== Sys2Proof/Proofs/StreamLaws.lean ====
section
/-! PROOFS. Laws of the encoded buffer (30_encoding R94 to R100, 45_delta R229, 60_exceptions R264): where each byte of
it stands, and which buffers and counts decode to the same values. -/

namespace Sys2Proof.Machine

/-! ### Codes wider than the encoder's choice -/

/-- Settles O26: behind the control region stands what the element loop reads back, whatever codes it names. -/
theorem widerCodesDecode : Obligations.WiderCodesDecode := by
  intro items ctrl extra hfit hlen hcode
  by_cases hne : items = []
  · subst hne
    obtain rfl : ctrl = [] := List.eq_nil_of_length_eq_zero hlen
    rfl
  · rw [decodeStream_of_le (List.length_pos_iff.mpr hne) (by simp [hlen]), ← hlen, List.append_assoc,
      List.take_left' rfl, ← List.append_assoc]
    refine decodeElements_writeValues hfit (fun j hj => ?_) ctrl extra
    rw [Nat.zero_add, hcode j hj, ← List.getElem_eq_getD]

/-! ### The buffer byte by byte -/

theorem slotCode_eq (vals : List Word) (i : Nat) :
    slotCode vals i = if i < vals.length then lengthCode (vals.getD i 0#32) else 0#2 := by
  split
  case isTrue hi => rw [slotCode_of_lt hi, ← List.getElem_eq_getD]
  case isFalse hi => rw [slotCode, List.getElem?_eq_none (Nat.not_lt.mp hi)]

theorem controlSlot_encodeStream (vals : List Word) {g k : Nat} (hg : g < ceil4 vals.length) (hk : k < 4) :
    controlSlot ((encodeStream vals).getD g 0#8) k = slotCode vals (4 * g + k) := by
  rw [encodeStream, List.getD_append _ _ _ _ (by rwa [length_controlRegion]), getD_controlRegion vals hg,
    controlSlot_groupControlByte vals g hk]

/-- Byte `j` of value `i` stands behind the bytes of the values before it. -/
theorem getD_dataRegion {vals : List Word} {i j : Nat} (hi : i < vals.length)
    (hj : j < width (lengthCode (vals.getD i 0#32))) :
    (dataRegion vals).getD (((vals.take i).map fun v => (lengthCode v).toNat + 1).sum + j) 0#8 =
      (vals.getD i 0#32).extractLsb' (8 * j) 8 := by
  induction vals generalizing i with
  | nil => cases hi
  | cons v vs ih =>
    cases i with
    | zero =>
      rw [List.getD_cons_zero] at hj
      rw [List.take_zero, List.map_nil, List.sum_nil, Nat.zero_add, dataRegion,
        List.getD_append _ _ _ _ (by rwa [length_writeValue]), getD_writeValue v hj, List.getD_cons_zero]
    | succ i =>
      rw [List.getD_cons_succ] at hj ⊢
      rw [List.take_succ_cons, List.map_cons, List.sum_cons, Nat.add_assoc, dataRegion, ← width,
        List.getD_append_right _ _ _ _ (by rw [length_writeValue]; exact Nat.le_add_right _ _), length_writeValue,
        Nat.add_sub_cancel_left, ih (Nat.lt_of_succ_lt_succ hi) hj]

/-- Settles O19: the control region slot by slot, and behind it the data region value by value. -/
theorem encodedBufferLayout : Obligations.EncodedBufferLayout := by
  refine fun vals => ⟨fun g k hg hk => ?_, fun i j hi hj => ?_⟩
  · rw [← slotCode_eq]
    exact controlSlot_encodeStream vals hg hk
  · rw [Nat.add_assoc, encodeStream, ← ceil4,
      List.getD_append_right _ _ _ _ (by rw [length_controlRegion]; exact Nat.le_add_right _ _),
      length_controlRegion, Nat.add_sub_cancel_left, getD_dataRegion hi (Nat.lt_succ_of_le hj)]

/-! ### Padding slots -/

/-- What is read from an offset on depends only on the bytes from a lower offset on. -/
theorem readValue_congr {bs bs' : List Byte} {start p : Nat} (hlen : bs.length = bs'.length)
    (hdrop : bs.drop start = bs'.drop start) (hp : start ≤ p) (c : LengthCode) :
    readValue bs p c = readValue bs' p c := by
  have hdropp : bs.drop p = bs'.drop p := by
    rw [← Nat.add_sub_cancel' hp, ← List.drop_drop, ← List.drop_drop, hdrop]
  rw [readValue, readValue, hlen, hdropp]

/-- The element loop depends only on the codes of its elements and on the bytes behind the control region. -/
theorem decodeElements_congr {bs bs' ctrl ctrl' : List Byte} {start k i p : Nat} (hlen : bs.length = bs'.length)
    (hdrop : bs.drop start = bs'.drop start) (hp : start ≤ p)
    (hcode : ∀ j, j < i + k → codeOf ctrl j = codeOf ctrl' j) :
    decodeElements bs ctrl k i p = decodeElements bs' ctrl' k i p := by
  induction k generalizing i p with
  | zero => rfl
  | succ k ih =>
    rw [decodeElements, decodeElements, hcode i (by omega), readValue_congr hlen hdrop hp]
    cases readValue bs' p (codeOf ctrl' i) with
    | none => rfl
    | some r =>
      have htail := ih (i := i + 1) (p := p + r.2) (Nat.le_add_right_of_le hp) fun j hj => hcode j (by omega)
      simp only [htail]

/-- Replacing the last control byte leaves the code of every element whose slot in it is kept. -/
theorem codeOf_set {ctrl : List Byte} {n : Nat} {b : Byte} (hlen : ctrl.length = ceil4 n)
    (hslots : ∀ k, k < n % 4 → controlSlot b k = controlSlot (ctrl.getD (ceil4 n - 1) 0#8) k) {j : Nat}
    (hj : j < n) (hn : n % 4 ≠ 0) : codeOf (ctrl.set (ceil4 n - 1) b) j = codeOf ctrl j := by
  have hpos : 0 < ceil4 n := by
    rw [ceil4]
    omega
  by_cases hlast : j / 4 = ceil4 n - 1
  · have hk : j % 4 < n % 4 := by
      rw [ceil4] at hlast
      omega
    rw [codeOf, codeOf, hlast, List.getD_eq_getElem?_getD, List.getElem?_set_self (by omega), Option.getD_some,
      hslots _ hk]
  · rw [codeOf, codeOf, List.getD_eq_getElem?_getD, List.getElem?_set_ne (Ne.symm hlast),
      ← List.getD_eq_getElem?_getD]

/-- Settles O27: the last control byte is not one of the data bytes, and no element asks for a padding slot. -/
theorem paddingSlotsIgnored : Obligations.PaddingSlotsIgnored := by
  intro bytes n b hn hctrl hslots
  have hpos : 0 < n := Nat.pos_of_ne_zero fun h => hn (by rw [h])
  have hceil : 0 < ceil4 n := by
    rw [ceil4]
    omega
  have hlast : (bytes.take (ceil4 n)).getD (ceil4 n - 1) 0#8 = bytes.getD (ceil4 n - 1) 0#8 := by
    rw [List.getD_eq_getElem?_getD, List.getElem?_take_of_lt (by omega), ← List.getD_eq_getElem?_getD]
  rw [decodeStream_of_le hpos (by rwa [List.length_set]), decodeStream_of_le hpos hctrl, List.take_set]
  refine decodeElements_congr (start := ceil4 n) List.length_set (List.drop_set_of_lt (by omega)) (Nat.le_refl _)
    fun j hj => codeOf_set (List.length_take_of_le hctrl) (fun k hk => ?_) (by omega) hn
  rw [hlast]
  exact hslots k hk

/-! ### Smaller counts -/

theorem decodeElements_prefix {bytes ctrl : List Byte} {k m i p q : Nat} {vs : List Word} (hm : m ≤ k)
    (h : decodeElements bytes ctrl k i p = some (vs, q)) :
    ∃ q' ≤ q, decodeElements bytes ctrl m i p = some (vs.take m, q') := by
  induction m generalizing k i p vs with
  | zero => exact ⟨p, (decodeElements_spec h).2.1, rfl⟩
  | succ m ih =>
    obtain ⟨k, rfl⟩ := Nat.exists_eq_succ_of_ne_zero (Nat.ne_of_gt (Nat.lt_of_lt_of_le m.succ_pos hm))
    obtain ⟨v, w, rest, hread, hrest, rfl⟩ := decodeElements_succ_eq_some h
    obtain ⟨q', hq', htail⟩ := ih (Nat.le_of_succ_le_succ hm) hrest
    exact ⟨q', hq', by simp [decodeElements, hread, htail]⟩

/-- Settles O28: with the same control region, the first elements are read as before. -/
theorem smallerCountDecodesPrefix : Obligations.SmallerCountDecodesPrefix := by
  intro bytes n m vals consumed hmn hceil h
  by_cases hm : m = 0
  · subst hm
    exact ⟨0, Nat.zero_le _, rfl⟩
  · have hmpos := Nat.pos_of_ne_zero hm
    have hnpos := Nat.lt_of_lt_of_le hmpos hmn
    have hctrl : ceil4 n ≤ bytes.length := Nat.not_lt.mp fun hlt => by
      rw [decodeStream_of_lt hnpos hlt] at h
      cases h
    rw [decodeStream_of_le hnpos hctrl] at h
    rw [decodeStream_of_le hmpos (hceil ▸ hctrl), hceil]
    exact decodeElements_prefix hmn h

/-! ### The size of the delta form -/

theorem width_lengthCode_mono {u v : Word} (h : u.toNat ≤ v.toNat) :
    width (lengthCode u) ≤ width (lengthCode v) :=
  Nat.succ_le_succ (lengthCode_le_of_lt_pow (Nat.lt_of_le_of_lt h (lt_pow_lengthCode v)))

/-- The difference from a value that is not greater does not wrap, so it is not greater than what it is taken of. -/
theorem length_dataRegion_deltaTransform_le {prev : Word} {vals : List Word}
    (h : (prev :: vals).Pairwise fun a b => a.toNat ≤ b.toNat) :
    (dataRegion (deltaTransform prev vals)).length ≤ (dataRegion vals).length := by
  induction vals generalizing prev with
  | nil => exact Nat.le_refl _
  | cons v vs ih =>
    obtain ⟨hprev, hvals⟩ := List.pairwise_cons.mp h
    have hle : prev ≤ v := hprev v List.mem_cons_self
    have hdelta : (v - prev).toNat ≤ v.toNat := BitVec.toNat_sub_of_le hle ▸ Nat.sub_le _ _
    rw [deltaTransform, length_dataRegion_cons, length_dataRegion_cons]
    exact Nat.add_le_add (width_lengthCode_mono hdelta) (ih hvals)

/-- Settles O33: both forms have as many control bytes, and no difference is wider than its value. -/
theorem deltaNeverLongerIfNonDecreasing : Obligations.DeltaNeverLongerIfNonDecreasing := by
  intro vals seed h
  rw [length_encodeStream, length_encodeStream, length_deltaTransform]
  exact Nat.add_le_add_left (length_dataRegion_deltaTransform_le h) _

end Sys2Proof.Machine
end

