-- ==== Sys2Proof/Proofs/Completions.lean ====
section
/-! PROOFS. The completion of a command, whatever the command (40_command_cycle R124 to R127, 20_memory R68 to R70,
60_exceptions R256): what each one leaves unchanged, which memory it writes, and what decides its outcome. -/

namespace Sys2Proof.Machine

/-! ### Rules for the guarded run -/

/-- A guarded run that completes ends on an empty sequence, with ACCESS_FAULT, or where its run ends. -/
theorem State.guarded_induction {s t : State} {src dst : Region} {run : State → State} {P : State → Prop}
    (h : s.guarded src dst run = .next t) (hempty : P (s.completeOk 0)) (hfault : P (s.raiseError .accessFault))
    (hrun : s.Admits src dst → P (run s.releaseCursors)) : P t := by
  obtain ⟨-, he⟩ | ⟨-, -, he⟩ | ⟨-, -, -, he⟩ | ⟨-, -, -, -, he⟩ | ⟨hadmits, he⟩ :=
    State.guarded_cases s src dst run <;> rw [he] at h <;> cases h
  · exact hempty
  · exact hfault
  · exact hrun hadmits

/-- Two guarded runs under the same checks take the same branch. -/
theorem State.guarded_rel {s s' : State} {src dst : Region} {run run' : State → State}
    {R : State → State → Prop} (hcount : s'.engine.count = s.engine.count) (hplatform : s'.platform = s.platform)
    (hempty : R (s.completeOk 0) (s'.completeOk 0))
    (hfault : R (s.raiseError .accessFault) (s'.raiseError .accessFault))
    (hrun : R (run s.releaseCursors) (run' s'.releaseCursors)) :
    (∀ t, s.guarded src dst run = .next t → ∃ u, s'.guarded src dst run' = .next u ∧ R t u) ∧
      (∀ r, s.guarded src dst run = .refused r → s'.guarded src dst run' = .refused r) := by
  unfold State.guarded
  rw [hcount, hplatform]
  split_ifs
  · exact ⟨fun t h => by cases h; exact ⟨_, rfl, hempty⟩, nofun⟩
  · exact ⟨fun t h => by cases h; exact ⟨_, rfl, hfault⟩, nofun⟩
  · exact ⟨nofun, fun _ h => h⟩
  · exact ⟨nofun, fun _ h => h⟩
  · exact ⟨fun t h => by cases h; exact ⟨_, rfl, hrun⟩, nofun⟩

theorem exec_encode_eq_guarded (s : State) :
    exec .encode s =
      s.guarded s.engine.encodeSource s.engine.encodeDest fun t => t.storeEncoded t.sourceInts := rfl

theorem exec_decode_eq_guarded (s : State) :
    exec .decode s =
      s.guarded s.engine.decodeSource s.engine.decodeDest fun t => t.storeDecoded t.sourceDecoded := rfl

theorem exec_encodeDelta_eq_guarded (s : State) :
    exec .encodeDelta s =
      s.guarded s.engine.encodeSource s.engine.encodeDest fun t =>
        (t.storeEncoded (deltaTransform t.engine.seed t.sourceInts)).releasePrev := rfl

theorem exec_decodeDelta_eq_guarded (s : State) :
    exec .decodeDelta s =
      s.guarded s.engine.decodeSource s.engine.decodeDest fun t =>
        (t.storeDecoded (accumulated t.engine.seed t.sourceDecoded)).releasePrev := rfl

/-! ### Device memory -/

theorem Region.overlaps_eq_false_iff_forall {r t : Region} :
    r.overlaps t = false ↔ ∀ a, r.contains a = true → t.contains a = false := by
  rw [← Bool.not_eq_true, Region.overlaps_iff]
  simp only [not_exists, not_and, Bool.not_eq_true]

theorem Platform.touchesDevice_iff {p : Platform} {r : Region} :
    p.touchesDevice r = true ↔ ∃ d ∈ p.devices, ∃ a, d.contains a = true ∧ r.contains a = true := by
  simp only [Platform.touchesDevice, List.any_eq_true, Region.overlaps_iff, and_comm]

/-- The check for device memory is the last one. -/
theorem State.guarded_eq_deviceMemory_iff {s : State} {src dst : Region} {run : State → State} :
    s.guarded src dst run = .refused .deviceMemory ↔
      s.engine.count ≠ 0#32 ∧ (src.ok s.platform.memSize = true ∧ dst.ok s.platform.memSize = true) ∧
        src.overlaps dst = false ∧
        (s.platform.touchesDevice src = true ∨ s.platform.touchesDevice dst = true) := by
  obtain ⟨hcount, he⟩ | ⟨-, hok, he⟩ | ⟨-, -, hoverlap, he⟩ | ⟨hcount, hok, hdisjoint, hdevice, he⟩ |
    ⟨⟨-, -, -, -, hsrc, hdst⟩, he⟩ := State.guarded_cases s src dst run
  · simp [he, hcount]
  · simp [he, hok]
  · simp [he, hoverlap]
  · simp [he, hcount, hok, hdisjoint, hdevice]
  · simp [he, hsrc, hdst]

/-- Settles O14: a command with regions runs under the shared checks, and the last of them looks for an address
shared with a device window. -/
theorem deviceRegionRefused : Obligations.DeviceRegionRefused := by
  intro i s src dst hregions
  obtain ⟨run, hrun⟩ := exec_eq_guarded hregions
  rw [hrun, State.guarded_eq_deviceMemory_iff, Region.ok_iff, Region.ok_iff, Region.overlaps_eq_false_iff_forall,
    Platform.touchesDevice_iff, Platform.touchesDevice_iff, and_assoc]
  simp only [← exists_or, ← and_or_left]

/-! ### What every completion does -/

/-- `t` is an end of the command in flight in `s`: PENDING is `none`, STATUS a completed word, the operands and
everything around the engine are the same, and with an error RESULT is 0 and memory is unchanged. -/
structure State.EndsIn (s t : State) : Prop where
  pending : t.engine.pending = none
  operands : s.engine.SameOperands t.engine
  surroundings : s.SameSurroundings t
  status : ∃ err, t.engine.status = statusWord false true err
  error : t.engine.err ≠ noError → t.mem = s.mem ∧ t.engine.result = 0#64

theorem State.EndsIn.done {s t : State} (h : s.EndsIn t) : t.engine.done = true := by
  obtain ⟨err, hstatus⟩ := h.status
  rw [Engine.done, hstatus, statusDone_statusWord]

theorem State.EndsIn.busy {s t : State} (h : s.EndsIn t) : t.engine.busy = false := by
  obtain ⟨err, hstatus⟩ := h.status
  rw [Engine.busy, hstatus, statusBusy_statusWord]

/-- A success may write memory. -/
theorem State.endsIn_completeOk_withMem (s : State) (m : Memory) (n : Nat) :
    s.EndsIn (State.completeOk { s with mem := m } n) where
  pending := rfl
  operands := by simp [Engine.SameOperands]
  surroundings := by simp [State.SameSurroundings]
  status := ⟨_, rfl⟩
  error herr := absurd (statusErr_statusWord _ _ _) herr

theorem State.endsIn_completeOk (s : State) (n : Nat) : s.EndsIn (s.completeOk n) :=
  State.endsIn_completeOk_withMem s s.mem n

theorem State.endsIn_raiseError (s : State) (c : ErrorCode) : s.EndsIn (s.raiseError c) where
  pending := rfl
  operands := by simp [Engine.SameOperands]
  surroundings := by simp [State.SameSurroundings]
  status := ⟨_, rfl⟩
  error _ := ⟨rfl, rfl⟩

theorem State.endsIn_storeEncoded (s : State) (vals : List Word) : s.EndsIn (s.storeEncoded vals) := by
  obtain ⟨-, h⟩ | ⟨-, h⟩ := State.storeEncoded_cases s vals
  · exact h ▸ State.endsIn_raiseError s _
  · exact h ▸ State.endsIn_completeOk_withMem s _ _

theorem State.endsIn_storeDecoded (s : State) (d : Option (List Word × Nat)) : s.EndsIn (s.storeDecoded d) := by
  obtain ⟨-, h⟩ | ⟨vals, consumed, -, h⟩ := State.storeDecoded_cases s d
  · exact h ▸ State.endsIn_raiseError s _
  · exact h ▸ State.endsIn_completeOk_withMem s _ _

/-- The cursors take no part in it. -/
theorem State.EndsIn.of_releaseCursors {s t : State} (h : s.releaseCursors.EndsIn t) : s.EndsIn t :=
  ⟨h.pending, h.operands, h.surroundings, h.status, h.error⟩

/-- PREV takes no part in it. -/
theorem State.EndsIn.releasePrev {s t : State} (h : s.EndsIn t) : s.EndsIn t.releasePrev :=
  ⟨h.pending, h.operands, h.surroundings, h.status, h.error⟩

theorem State.endsIn_of_guarded {s t : State} {src dst : Region} {run : State → State}
    (h : s.guarded src dst run = .next t) (hrun : s.releaseCursors.EndsIn (run s.releaseCursors)) : s.EndsIn t :=
  State.guarded_induction h (s.endsIn_completeOk 0) (s.endsIn_raiseError _) fun _ => hrun.of_releaseCursors

theorem endsIn_of_exec {i : Instr} {s t : State} (h : exec i s = .next t) : s.EndsIn t := by
  cases i with
  | capacity =>
    cases h
    exact s.endsIn_completeOk _
  | encode =>
    rw [exec_encode_eq_guarded] at h
    exact State.endsIn_of_guarded h (State.endsIn_storeEncoded _ _)
  | decode =>
    rw [exec_decode_eq_guarded] at h
    exact State.endsIn_of_guarded h (State.endsIn_storeDecoded _ _)
  | encodeDelta =>
    rw [exec_encodeDelta_eq_guarded] at h
    exact State.endsIn_of_guarded h (State.endsIn_storeEncoded _ _).releasePrev
  | decodeDelta =>
    rw [exec_decodeDelta_eq_guarded] at h
    exact State.endsIn_of_guarded h (State.endsIn_storeDecoded _ _).releasePrev

theorem endsIn_of_completion {s t : State} (hpending : s.engine.pending ≠ none) (h : completion s = .next t) :
    s.EndsIn t := by
  obtain ⟨hnone, -⟩ | ⟨-, rfl⟩ | ⟨i, -, hexec⟩ := completion_cases h
  · exact absurd hnone hpending
  · exact s.endsIn_raiseError _
  · exact endsIn_of_exec hexec

/-- Settles O16: this is so for every completion of a pending command. -/
theorem errorWritesNoByte : Obligations.ErrorWritesNoByte := by
  intro s t hpending hcompletion herr
  have hends := endsIn_of_completion hpending hcompletion
  obtain ⟨hmem, hresult⟩ := hends.error herr
  exact ⟨hmem, hresult, hends.done, hends.busy, hends.pending, hends.operands, hends.surroundings⟩

/-! ### Write footprints -/

theorem Memory.sameOutside_refl (m : Memory) (r : Region) : m.SameOutside m r := fun _ _ => rfl

/-- The bytes written are the RESULT bytes from DST_ADDR. -/
theorem State.sameOutside_storeEncoded {s : State} {vals : List Word}
    (hlen : vals.length = s.engine.count.toNat) :
    s.mem.SameOutside (s.storeEncoded vals).mem
      ⟨s.engine.dstAddr.toNat, (s.storeEncoded vals).engine.result.toNat⟩ := by
  by_cases hroom : maxCompressedBytes s.engine.count.toNat ≤ s.engine.dstLen.toNat
  · obtain ⟨-, hresult, hmem⟩ := State.storeEncoded_fits hlen hroom
    rw [hresult, hmem]
    exact Memory.sameOutside_writeBytes _ _ _
  · obtain ⟨-, -, hmem⟩ := State.storeEncoded_tooSmall vals (Nat.not_le.mp hroom)
    rw [hmem]
    exact Memory.sameOutside_refl _ _

/-- The bytes written are the COUNT elements at DST_ADDR. -/
theorem State.sameOutside_storeDecoded {s : State} {d : Option (List Word × Nat)}
    (hlen : ∀ r ∈ d, r.1.length = s.engine.count.toNat) :
    s.mem.SameOutside (s.storeDecoded d).mem ⟨s.engine.dstAddr.toNat, 4 * s.engine.count.toNat⟩ := by
  obtain ⟨-, h⟩ | ⟨vals, consumed, rfl, h⟩ := State.storeDecoded_cases s d
  · exact h ▸ Memory.sameOutside_refl _ _
  · rw [h, ← hlen (vals, consumed) rfl]
    exact Memory.sameOutside_writeInts _ _ _

/-- A guarded run that ends before step 6 writes no byte. -/
theorem State.sameOutside_of_guarded {s t : State} {src dst : Region} {run : State → State} (r : State → Region)
    (h : s.guarded src dst run = .next t)
    (hrun : s.mem.SameOutside (run s.releaseCursors).mem (r (run s.releaseCursors))) :
    s.mem.SameOutside t.mem (r t) :=
  State.guarded_induction (P := fun t => s.mem.SameOutside t.mem (r t)) h (Memory.sameOutside_refl _ _)
    (Memory.sameOutside_refl _ _) fun _ => hrun

theorem sameOutside_of_exec_encode {i : Instr} {s t : State} (hi : i = .encode ∨ i = .encodeDelta)
    (h : exec i s = .next t) :
    s.mem.SameOutside t.mem ⟨s.engine.dstAddr.toNat, t.engine.result.toNat⟩ := by
  obtain rfl | rfl := hi
  · rw [exec_encode_eq_guarded] at h
    exact State.sameOutside_of_guarded (fun t => ⟨_, t.engine.result.toNat⟩) h
      (State.sameOutside_storeEncoded (s := s.releaseCursors) s.length_sourceInts)
  · rw [exec_encodeDelta_eq_guarded] at h
    exact State.sameOutside_of_guarded (fun t => ⟨_, t.engine.result.toNat⟩) h
      (State.sameOutside_storeEncoded (s := s.releaseCursors) (length_deltaTransform_sourceInts s _))

theorem length_of_mem_accumulated {s : State} {seed : Word} {r : List Word × Nat}
    (h : r ∈ accumulated seed s.sourceDecoded) : r.1.length = s.engine.count.toNat := by
  obtain ⟨r, hr, rfl⟩ := Option.map_eq_some_iff.mp h
  rw [length_deltaAccumulate]
  exact (State.sourceDecoded_spec hr).1

theorem sameOutside_of_exec_decode {i : Instr} {s t : State} (hi : i = .decode ∨ i = .decodeDelta)
    (h : exec i s = .next t) :
    s.mem.SameOutside t.mem ⟨s.engine.dstAddr.toNat, 4 * s.engine.count.toNat⟩ := by
  obtain rfl | rfl := hi
  · rw [exec_decode_eq_guarded] at h
    exact State.sameOutside_of_guarded (fun _ => ⟨_, 4 * s.engine.count.toNat⟩) h
      (State.sameOutside_storeDecoded (s := s.releaseCursors) fun _ hr => (State.sourceDecoded_spec hr).1)
  · rw [exec_decodeDelta_eq_guarded] at h
    exact State.sameOutside_of_guarded (fun _ => ⟨_, 4 * s.engine.count.toNat⟩) h
      (State.sameOutside_storeDecoded (s := s.releaseCursors) fun _ hr => length_of_mem_accumulated hr)

/-- A run that keeps PREV is a command that keeps PREV. -/
theorem State.prev_of_guarded {s t : State} {src dst : Region} {run : State → State}
    (h : s.guarded src dst run = .next t)
    (hrun : (run s.releaseCursors).engine.prev = s.releaseCursors.engine.prev) :
    t.engine.prev = s.engine.prev :=
  State.guarded_induction (P := fun t => t.engine.prev = s.engine.prev) h rfl rfl fun _ => hrun

theorem prev_of_exec_encode {s t : State} (h : exec .encode s = .next t) : t.engine.prev = s.engine.prev := by
  rw [exec_encode_eq_guarded] at h
  obtain ⟨-, -, hprev, -⟩ := State.storeEncoded_frame s.releaseCursors s.releaseCursors.sourceInts
  exact State.prev_of_guarded h hprev

theorem prev_of_exec_decode {s t : State} (h : exec .decode s = .next t) : t.engine.prev = s.engine.prev := by
  rw [exec_decode_eq_guarded] at h
  obtain ⟨-, -, hprev, -⟩ := State.storeDecoded_frame s.releaseCursors s.releaseCursors.sourceDecoded
  exact State.prev_of_guarded h hprev

/-- Settles O34: an error writes no byte and has RESULT 0, and a success writes the encoded sequence. -/
theorem encodeFrame : Obligations.EncodeFrame := by
  intro i s t hi hexec
  have hends := endsIn_of_exec hexec
  refine ⟨hends.operands, hends.surroundings, fun hplain => ?_, sameOutside_of_exec_encode hi hexec⟩
  subst hplain
  exact prev_of_exec_encode hexec

/-- Settles O35: an error writes no byte, and a success writes one element for each value decoded. -/
theorem decodeFrame : Obligations.DecodeFrame := by
  intro i s t hi hexec
  have hends := endsIn_of_exec hexec
  refine ⟨hends.operands, hends.surroundings, fun hplain => ?_, sameOutside_of_exec_decode hi hexec,
    fun herr => (hends.error herr).1⟩
  subst hplain
  exact prev_of_exec_decode hexec

/-! ### The array comes back -/

/-- ENCODE with room for the capacity bound: success, with the encoded source integers from DST_ADDR on. -/
theorem exec_encode_fits {s t : State} (hadmits : s.Admits s.engine.encodeSource s.engine.encodeDest)
    (hroom : maxCompressedBytes s.engine.count.toNat ≤ s.engine.dstLen.toNat) (hexec : exec .encode s = .next t) :
    t.engine.result.toNat = (encodeStream s.sourceInts).length ∧
      t.mem = s.mem.writeBytes s.engine.dstAddr.toNat (encodeStream s.sourceInts) := by
  rw [exec_encode_of_admits hadmits] at hexec
  cases hexec
  exact (State.storeEncoded_fits (s := s.releaseCursors) s.length_sourceInts hroom).2

/-- DECODE of a stream that decodes: success, with the values as an array at DST_ADDR. -/
theorem exec_decode_decodes {s t : State} {vals : List Word} {consumed : Nat}
    (hadmits : s.Admits s.engine.decodeSource s.engine.decodeDest)
    (hdecoded : s.sourceDecoded = some (vals, consumed)) (hexec : exec .decode s = .next t) :
    t.engine.status = 0x02#32 ∧ t.engine.result.toNat = consumed ∧
      t.mem = s.mem.writeInts s.engine.dstAddr.toNat vals := by
  have hsource : s.releaseCursors.sourceDecoded = some (vals, consumed) := hdecoded
  rw [exec_decode_of_admits hadmits, hsource] at hexec
  cases hexec
  exact State.storeDecoded_some s.releaseCursors vals
    (Nat.lt_of_le_of_lt (State.sourceDecoded_spec hdecoded).2 (maxCompressedBytes_lt s.engine.count.isLt))

/-- Settles O30: the bytes ENCODE wrote decode to the source integers. -/
theorem encodeThenDecode : Obligations.EncodeThenDecode := by
  intro s t u addr hadmits hroom hexec hu hadmits'
  obtain ⟨hresult, hmem⟩ := exec_encode_fits hadmits hroom hexec
  obtain ⟨-, hcount, -⟩ := (endsIn_of_exec hexec).operands
  have hdecoded : u.sourceDecoded = some (s.sourceInts, t.engine.result.toNat) := by
    subst hu
    rw [hresult]
    exact State.sourceDecoded_of_encodeStream hmem hresult (hcount ▸ s.length_sourceInts.symm)
  have hexec' := exec_decode_of_admits hadmits'
  obtain ⟨hstatus, hresult', hmem'⟩ := exec_decode_decodes hadmits' hdecoded hexec'
  refine ⟨_, hexec', hstatus, BitVec.eq_of_toNat_eq hresult', ?_⟩
  have hread := Memory.readInts_writeInts u.mem addr.toNat s.sourceInts
  rw [State.length_sourceInts] at hread
  rwa [hmem', show u.engine.dstAddr = addr from hu ▸ rfl]

/-! ### DECODE_DELTA ends as DECODE does -/

/-- The two states report the same STATUS and RESULT. -/
def State.SameReport (t u : State) : Prop :=
  u.engine.status = t.engine.status ∧ u.engine.result = t.engine.result

/-- The report of a decoded stream tells whether it decodes, and how many bytes it consumed. -/
theorem State.sameReport_storeDecoded (s s' : State) {d d' : Option (List Word × Nat)}
    (h : d'.map Prod.snd = d.map Prod.snd) : State.SameReport (s.storeDecoded d) (s'.storeDecoded d') := by
  cases d with
  | none =>
    rw [Option.map_none, Option.map_eq_none_iff] at h
    subst h
    exact ⟨rfl, rfl⟩
  | some r =>
    obtain ⟨r', rfl, hsize⟩ := Option.map_eq_some_iff.mp h
    exact ⟨rfl, congrArg (BitVec.ofNat 64) hsize⟩

@[simp] theorem map_snd_accumulated (seed : Word) (d : Option (List Word × Nat)) :
    (accumulated seed d).map Prod.snd = d.map Prod.snd := by
  cases d <;> rfl

/-- Settles O32: under the same checks both store a stream of which as many bytes were consumed. -/
theorem decodeDeltaResultIsDecodes : Obligations.DecodeDeltaResultIsDecodes := by
  intro s t hexec
  rw [exec_decode_eq_guarded] at hexec
  rw [exec_decodeDelta_eq_guarded]
  refine (State.guarded_rel (R := State.SameReport) rfl rfl ⟨rfl, rfl⟩ ⟨rfl, rfl⟩ ?_).1 t hexec
  exact State.sameReport_storeDecoded _ _ (map_snd_accumulated _ _)

/-- Each sum is off by as much as the value before it, the first by the difference of the seeds. -/
theorem deltaAccumulate_deltaTransform_of_seeds (other seed : Word) (vals : List Word) :
    deltaAccumulate other (deltaTransform seed vals) = vals.map fun v => v + (other - seed) := by
  induction vals generalizing other seed with
  | nil => rfl
  | cons v vs ih =>
    have hsum : other + (v - seed) = v + (other - seed) := by bv_omega
    have hoffset : v + (other - seed) - v = other - seed := by bv_omega
    rw [deltaTransform, deltaAccumulate, hsum, ih, hoffset, List.map_cons]

/-- Settles O31: the seed offsets the sums and takes no part in the checks or in the report. -/
theorem seedMismatchOffsetsValues : Obligations.SeedMismatchOffsetsValues := by
  refine ⟨fun vals seed other => deltaAccumulate_deltaTransform_of_seeds other seed vals,
    fun s t other hexec => ?_⟩
  rw [exec_decodeDelta_eq_guarded] at hexec
  rw [exec_decodeDelta_eq_guarded]
  refine (State.guarded_rel (s := s) (s' := { s with engine := { s.engine with seed := other } })
    (R := State.SameReport) rfl rfl ⟨rfl, rfl⟩ ⟨rfl, rfl⟩ ?_).1 t hexec
  exact State.sameReport_storeDecoded _ _ (by rw [map_snd_accumulated, map_snd_accumulated]; rfl)

/-! ### Read footprints -/

/-- From the memories `m` and `m'` two commands have ended in `t` and `u` with the same engine, and at each address
both wrote the same byte or neither wrote. -/
def State.SameWrites (m m' : Memory) (t u : State) : Prop :=
  u.engine = t.engine ∧
    ∀ a, u.mem.read a = t.mem.read a ∨ (u.mem.read a = m'.read a ∧ t.mem.read a = m.read a)

theorem Memory.sameWrites_writeBytes (m m' : Memory) (a : Nat) (bs : List Byte) (x : Nat) :
    (m'.writeBytes a bs).read x = (m.writeBytes a bs).read x ∨
      ((m'.writeBytes a bs).read x = m'.read x ∧ (m.writeBytes a bs).read x = m.read x) := by
  by_cases hx : a ≤ x ∧ x < a + bs.length
  · left
    rw [Memory.read_writeBytes, Memory.read_writeBytes, if_pos hx, if_pos hx]
  · exact .inr ⟨Memory.read_writeBytes_outside bs m' hx, Memory.read_writeBytes_outside bs m hx⟩

section
variable (s : State) (m : Memory)

theorem State.sameWrites_completeOk (n : Nat) :
    State.SameWrites s.mem m (s.completeOk n) (State.completeOk { s with mem := m } n) :=
  ⟨rfl, fun _ => .inr ⟨rfl, rfl⟩⟩

theorem State.sameWrites_raiseError (c : ErrorCode) :
    State.SameWrites s.mem m (s.raiseError c) (State.raiseError { s with mem := m } c) :=
  ⟨rfl, fun _ => .inr ⟨rfl, rfl⟩⟩

theorem State.sameWrites_storeEncoded {vals vals' : List Word} (h : vals' = vals) :
    State.SameWrites s.mem m (s.storeEncoded vals) (State.storeEncoded { s with mem := m } vals') := by
  subst h
  unfold State.storeEncoded
  split
  case isTrue hsmall => exact s.sameWrites_raiseError m _
  case isFalse hroom => exact ⟨rfl, Memory.sameWrites_writeBytes s.mem m _ _⟩

theorem State.sameWrites_storeDecoded {d d' : Option (List Word × Nat)} (h : d' = d) :
    State.SameWrites s.mem m (s.storeDecoded d) (State.storeDecoded { s with mem := m } d') := by
  subst h
  cases d' with
  | none => exact s.sameWrites_raiseError m _
  | some r => exact ⟨rfl, Memory.sameWrites_writeBytes s.mem m _ _⟩

/-- Two runs that write the same are one command under the same checks. -/
theorem State.sameWrites_guarded {src dst : Region} {run : State → State}
    (hrun : State.SameWrites s.mem m (run s.releaseCursors) (run (State.releaseCursors { s with mem := m }))) :
    (∀ t, s.guarded src dst run = .next t →
      ∃ u, State.guarded { s with mem := m } src dst run = .next u ∧ State.SameWrites s.mem m t u) ∧
    (∀ r, s.guarded src dst run = .refused r → State.guarded { s with mem := m } src dst run = .refused r) :=
  State.guarded_rel rfl rfl (s.sameWrites_completeOk m 0) (s.sameWrites_raiseError m _) hrun

end

/-- PREV takes the same free value in both if both have drawn as many. -/
theorem State.SameWrites.releasePrev {m m' : Memory} {t u : State} (h : State.SameWrites m m' t u)
    (hdraws : u.draws = t.draws) : State.SameWrites m m' t.releasePrev u.releasePrev := by
  obtain ⟨hengine, hmem⟩ := h
  refine ⟨?_, hmem⟩
  rw [State.releasePrev_engine, State.releasePrev_engine, hengine, hdraws]

@[simp] theorem State.storeEncoded_draws (s : State) (vals : List Word) : (s.storeEncoded vals).draws = s.draws := by
  obtain ⟨-, h⟩ | ⟨-, h⟩ := State.storeEncoded_cases s vals <;> rw [h] <;> rfl

@[simp] theorem State.storeDecoded_draws (s : State) (d : Option (List Word × Nat)) :
    (s.storeDecoded d).draws = s.draws := by
  obtain ⟨-, h⟩ | ⟨_, _, -, h⟩ := State.storeDecoded_cases s d <;> rw [h] <;> rfl

theorem State.sourceInts_withMem {s : State} {m : Memory}
    (h : ∀ a, s.engine.encodeSource.contains a = true → m.read a = s.mem.read a) :
    State.sourceInts { s with mem := m } = s.sourceInts :=
  Memory.readInts_congr fun x hlo hhi => h x (Region.contains_iff.mpr ⟨hlo, hhi⟩)

theorem State.sourceDecoded_withMem {s : State} {m : Memory}
    (h : ∀ a, s.engine.decodeSource.contains a = true → m.read a = s.mem.read a) :
    State.sourceDecoded { s with mem := m } = s.sourceDecoded := by
  have hbytes : State.sourceBytes { s with mem := m } = s.sourceBytes :=
    Memory.readBytes_congr _ fun x hlo hhi => h x (Region.contains_iff.mpr ⟨hlo, hhi⟩)
  rw [State.sourceDecoded, State.sourceDecoded, hbytes]

/-- Settles O36: the checks read no byte, and what is stored is computed from the source bytes. -/
theorem sourceBytesDecideOutcome : Obligations.SourceBytesDecideOutcome := by
  intro i s m src dst hregions hagree
  cases i with
  | capacity => cases hregions
  | encode =>
    cases hregions
    simp only [exec_encode_eq_guarded]
    exact s.sameWrites_guarded m (s.releaseCursors.sameWrites_storeEncoded m (State.sourceInts_withMem hagree))
  | decode =>
    cases hregions
    simp only [exec_decode_eq_guarded]
    exact s.sameWrites_guarded m (s.releaseCursors.sameWrites_storeDecoded m (State.sourceDecoded_withMem hagree))
  | encodeDelta =>
    cases hregions
    simp only [exec_encodeDelta_eq_guarded]
    have hvals := congrArg (deltaTransform s.engine.seed) (State.sourceInts_withMem hagree)
    refine s.sameWrites_guarded m ((s.releaseCursors.sameWrites_storeEncoded m hvals).releasePrev ?_)
    rw [State.storeEncoded_draws, State.storeEncoded_draws]
  | decodeDelta =>
    cases hregions
    simp only [exec_decodeDelta_eq_guarded]
    have hvals := congrArg (accumulated s.engine.seed) (State.sourceDecoded_withMem hagree)
    refine s.sameWrites_guarded m ((s.releaseCursors.sameWrites_storeDecoded m hvals).releasePrev ?_)
    rw [State.storeDecoded_draws, State.storeDecoded_draws]

end Sys2Proof.Machine
end

