-- ==== Sys2Proof/Proofs/HostPort.lean ====
section
/-! PROOFS. The host's actions (10_state R21 to R34, 30_encoding R90 to R102, 60_exceptions R265,
70_reset_and_hazards R280 to R295): command words, the words of the register window, reads and writes of them and of
memory, and RESET. -/

namespace Sys2Proof.Machine

/-! ### Command words -/

/-- Settles O1: the decoder, run on each of the nine words. -/
theorem commandWordsDecode : Obligations.CommandWordsDecode :=
  ⟨rfl, rfl, rfl, rfl, rfl, rfl, rfl, rfl, rfl⟩

/-- Settles O3: a word decodes to a command exactly when it is the command's word. -/
theorem decodeEncodeAgree : Obligations.DecodeEncodeAgree :=
  ⟨fun _ => decode_eq_ok_iff.mpr rfl, fun _ _ => decode_eq_ok_iff.mp⟩

/-! ### The words of the window -/

theorem Engine.portReg_eq_some_iff {e : Engine} {addr : Nat} {r : Reg} :
    e.portReg addr = some r ↔ addr = e.base + r.offset := by
  unfold Engine.portReg
  split
  case isTrue hbase =>
    constructor
    · intro h
      rw [Reg.offset_of_ofOffset h, Nat.add_sub_cancel' hbase]
    · rintro rfl
      rw [Nat.add_sub_cancel_left, Reg.ofOffset_offset]
  case isFalse hbase =>
    refine iff_of_false (Option.some_ne_none r).symm ?_
    rintro rfl
    exact hbase (Nat.le_add_right _ _)

theorem Engine.portReg_eq_none {e : Engine} {addr : Nat} (h : addr < e.base ∨ e.base + 64 ≤ addr) :
    e.portReg addr = none := by
  unfold Engine.portReg
  split
  · exact Reg.ofOffset_eq_none (by omega)
  · rfl

/-- Settles O4: the decoder of offsets answers a word for exactly the offset of the word. -/
theorem windowHoldsSixteenWords : Obligations.WindowHoldsSixteenWords :=
  fun _ _ _ => Engine.portReg_eq_some_iff

/-- The sixteen words stand at every multiple of 4 in the window. -/
theorem Reg.exists_offset_eq {i : Nat} (h : i < 16) : ∃ r : Reg, r.offset = 4 * i := by
  have hsome : ∀ i < 16, (Reg.ofOffset (4 * i)).isSome = true := by decide
  obtain ⟨r, hr⟩ := Option.isSome_iff_exists.mp (hsome i h)
  exact ⟨r, Reg.offset_of_ofOffset hr⟩

/-- Settles O56: the port and BASE count in words, so their distance is a multiple of 4. -/
theorem portWordsAreAligned : Obligations.PortWordsAreAligned := by
  intro e word
  by_cases hout : 4 * word < e.base ∨ e.base + 64 ≤ 4 * word
  · exact .inr ⟨Engine.portReg_eq_none hout, hout⟩
  · rw [Engine.base] at hout
    obtain ⟨r, hr⟩ := Reg.exists_offset_eq (i := word - e.baseWord) (by omega)
    have haddr : 4 * word = e.base + r.offset := by
      rw [hr, Engine.base]
      omega
    exact .inl ⟨r, Engine.portReg_eq_some_iff.mpr haddr, haddr, by omega⟩

/-! ### Accesses to the window -/

theorem State.hostRead_of_portTarget {s : State} {addr k : Nat} {r : Reg} {e : Engine}
    (hport : s.portTarget addr = some (k, r)) (he : s.engineAt k = some e) :
    s.hostRead addr = s.record (.word (e.readReg r)) := by
  simp only [State.hostRead, hport, he]

/-- Settles O7: a read of a word is recorded. -/
theorem hostRegisterRead : Obligations.HostRegisterRead := by
  refine ⟨fun s u word k r e hmoves hport he => ?_, fun e => ⟨rfl, rfl, rfl⟩⟩
  rw [← hmoves.portTarget_eq] at hport
  rw [← hmoves.engineAt_eq] at he
  rw [hmoves.step_eq, State.hostAct, State.hostRead_of_portTarget hport he, State.record]

theorem findPort_eq_none {addr : Nat} {es : List Engine} (h : ∀ e ∈ es, e.portReg addr = none) (k : Nat) :
    findPort addr k es = none := by
  induction es generalizing k with
  | nil => rfl
  | cons e es ih =>
    obtain ⟨he, hes⟩ := List.forall_mem_cons.mp h
    simp only [findPort, he, ih hes]

theorem State.portTarget_eq_none {s : State} {addr : Nat}
    (h : ∀ e ∈ s.engines, addr < e.base ∨ e.base + 64 ≤ addr) : s.portTarget addr = none :=
  findPort_eq_none (fun e he => Engine.portReg_eq_none (h e he)) 0

/-- Settles O57: an address outside every window has no target. -/
theorem accessOutsideWindows : Obligations.AccessOutsideWindows := by
  refine ⟨fun s u word w hmoves hout => ?_,
    fun s u word hmoves hout => ⟨Config.freeWord u.draws, u.draws + 1, ?_⟩⟩
  all_goals
    have hport := State.portTarget_eq_none hout
    rw [← hmoves.portTarget_eq] at hport
    rw [hmoves.step_eq, State.hostAct]
  · simp only [State.hostWrite, hport]
  · simp only [State.hostRead, hport, State.record]

/-! ### The 64-bit registers -/

theorem Engine.read64_eq_hiLo (e : Engine) (r : Reg64) : e.read64 r = hiLo (e.readReg r.hi) (e.readReg r.lo) := by
  cases r <;> exact (hiLo_hiWord_loWord _).symm

theorem Reg64.lo_ne_hi (r q : Reg64) : r.lo ≠ q.hi := by
  cases r <;> cases q <;> decide

theorem Reg64.writable_halves {r : Reg64} (h : r ≠ .result) : r.lo.writable = true ∧ r.hi.writable = true := by
  cases r with
  | result => exact absurd rfl h
  | srcAddr | srcLen | dstAddr | dstLen => exact ⟨rfl, rfl⟩

theorem Reg64.lo_injective : Function.Injective Reg64.lo := by
  intro r q
  cases r <;> cases q <;> decide

theorem Reg64.hi_injective : Function.Injective Reg64.hi := by
  intro r q
  cases r <;> cases q <;> decide

/-- Settles O8: each of the two stores sets its half and leaves every other word. -/
theorem sixtyFourBitRegisters : Obligations.SixtyFourBitRegisters := by
  refine ⟨Engine.read64_eq_hiLo, fun e r v hr => ⟨?_, fun q hq => ?_⟩⟩
  · obtain ⟨hlo, hhi⟩ := Reg64.writable_halves hr
    rw [Engine.read64_eq_hiLo, Engine.readReg_storeReg_self hhi,
      Engine.readReg_storeReg_of_ne (Reg64.lo_ne_hi r r), Engine.readReg_storeReg_self hlo]
    exact hiLo_hiWord_loWord v
  · rw [Engine.read64_eq_hiLo, Engine.read64_eq_hiLo,
      Engine.readReg_storeReg_of_ne (Reg64.hi_injective.ne hq),
      Engine.readReg_storeReg_of_ne (Reg64.lo_ne_hi r q).symm,
      Engine.readReg_storeReg_of_ne (Reg64.lo_ne_hi q r),
      Engine.readReg_storeReg_of_ne (Reg64.lo_injective.ne hq)]

/-! ### Conflicting regions -/

theorem regionsConflict_iff {x y : Region × Region} :
    regionsConflict x y = true ↔
      ∃ a, (x.2.contains a = true ∧ (y.1.contains a = true ∨ y.2.contains a = true)) ∨
        (x.1.contains a = true ∧ y.2.contains a = true) := by
  simp only [regionsConflict, Bool.or_eq_true, Region.overlaps_iff, ← exists_or, ← and_or_left]

theorem State.engineConflict_iff {s : State} {k : Nat} {e : Engine} :
    s.engineConflict k e = true ↔
      ∃ d ∈ s.engines.eraseIdx k, ∃ x ∈ e.inFlight, ∃ y ∈ d.inFlight, regionsConflict x y = true := by
  unfold State.engineConflict
  cases e.inFlight with
  | none => simp
  | some x =>
    simp only [List.any_eq_true, List.mem_filterMap]
    constructor
    · rintro ⟨y, ⟨d, hd, hy⟩, hconflict⟩
      exact ⟨d, hd, x, rfl, y, hy, hconflict⟩
    · rintro ⟨d, hd, _, ⟨⟩, y, hy, hconflict⟩
      exact ⟨y, ⟨d, hd, hy⟩, hconflict⟩

/-- Settles O50: the other engine is one of those the accept is checked against. -/
theorem conflictingAcceptRefused : Obligations.ConflictingAcceptRefused := by
  intro s u word k j w e d x y hmoves hport he hidle hx hj hd hy htouch
  have hmem : d ∈ s.engines.eraseIdx k := List.mem_eraseIdx_iff_getElem?.mpr ⟨j, hj, hd⟩
  have hconflict : s.engineConflict k (e.accept w) = true :=
    State.engineConflict_iff.mpr ⟨d, hmem, x, hx, y, hy, regionsConflict_iff.mpr htouch⟩
  rw [← hmoves.engineConflict_eq] at hconflict
  rw [← hmoves.engineAt_eq] at he
  rw [hmoves.step_wr hport, State.writePort_cmd_of_idle w he hidle, State.acceptAt, if_pos hconflict]

/-! ### Accesses to memory -/

theorem Region.ok_eq_false_iff {r : Region} {memSize : Nat} : r.ok memSize = false ↔ ¬r.InMemory memSize := by
  rw [← Bool.not_eq_true, Region.ok_iff]

theorem State.engineAt_eq_none {s : State} {k : Nat} (h : s.engines.length ≤ k) : s.engineAt k = none :=
  List.getElem?_eq_none h

/-- Settles O49: the check on memory is the first, the check on device windows the second, and an action on an engine
looks the engine up. -/
theorem hostActionsThatStop : Obligations.HostActionsThatStop := by
  refine ⟨fun s u addr bytes hmoves => ⟨fun hout => ?_, fun hin hdevice => ?_⟩,
    fun s u addr n hmoves => ⟨fun hout => ?_, fun hin hdevice => ?_⟩, fun s u k a ha hmoves hk => ?_⟩
  · rw [hmoves.step_eq, State.hostAct, State.hostMemWrite, hmoves.platform_eq,
      if_pos (Region.ok_eq_false_iff.mpr hout)]
  · rw [hmoves.step_eq, State.hostAct, State.hostMemWrite, hmoves.platform_eq,
      if_neg (mt Region.ok_eq_false_iff.mp (not_not_intro hin)), if_pos (Platform.touchesDevice_iff.mpr hdevice)]
  · rw [hmoves.step_eq, State.hostAct, State.hostMemRead, hmoves.platform_eq,
      if_pos (Region.ok_eq_false_iff.mpr hout)]
  · rw [hmoves.step_eq, State.hostAct, State.hostMemRead, hmoves.platform_eq,
      if_neg (mt Region.ok_eq_false_iff.mp (not_not_intro hin)), if_pos (Platform.touchesDevice_iff.mpr hdevice)]
  · have hnone := State.engineAt_eq_none hk
    rw [← hmoves.engineAt_eq] at hnone
    rw [hmoves.step_eq]
    obtain rfl | rfl := ha
    · simp only [State.hostAct, State.hostReset, hnone]
    · simp only [State.hostAct, State.hostPoll, hnone]

/-- Settles O48: past the three checks the bytes are written. -/
theorem hostMemoryWrite : Obligations.HostMemoryWrite := by
  intro s u addr bytes hmoves hmem hdevice hclear
  have hsafe : ¬u.writeHazard ⟨addr, bytes.length⟩ = true := by
    rw [State.writeHazard_iff, hmoves.inFlight_eq]
    rintro ⟨x, hx, a, hin, htouch⟩
    simp [hclear x hx a hin] at htouch
  have hstep : step s = .next { u with mem := u.mem.writeBytes addr bytes } := by
    rw [← hmoves.platform_eq] at hmem hdevice
    rw [hmoves.step_eq, State.hostAct, State.hostMemWrite_eq hmem hdevice, if_neg hsafe]
  rw [← hmoves.mem_eq]
  obtain ⟨_, _, -, -, rfl⟩ := hmoves
  exact ⟨_, hstep, rfl, rfl, ⟨rfl, rfl, rfl, rfl, rfl⟩, fun j hj => Memory.read_writeBytes_add _ _ hj,
    Memory.sameOutside_writeBytes _ _ _⟩

/-! ### RESET -/

theorem Engine.readReg_afterReset (e : Engine) (draw : Nat) (r : Reg) : (e.afterReset draw).readReg r = 0#32 := by
  have hpower : (e.afterReset draw).readReg r = Engine.powerOn.readReg r := by cases r <;> rfl
  rw [hpower, Engine.readReg_powerOn]

theorem Engine.inFlight_of_command {e : Engine} {i : Instr} (h : e.pending = some (.command i)) :
    e.inFlight = if e.count = 0#32 then none else e.regions i := by
  simp only [Engine.inFlight, h]

/-- Only a memory command is in flight with regions. -/
theorem Engine.inFlight_eq_none {e : Engine} (h : ∀ i, e.pending = some (.command i) → i = .capacity) :
    e.inFlight = none := by
  unfold Engine.inFlight
  split
  · rfl
  · rfl
  · next i hi =>
    obtain rfl := h i hi
    exact ite_self _

theorem State.memAfterReset_of_inFlight_none {s : State} {e : Engine} (h : e.inFlight = none) :
    s.memAfterReset e = s.mem := by
  simp only [State.memAfterReset, h]

theorem State.sameOutside_memAfterReset {s : State} {e : Engine} {src dst : Region}
    (h : e.inFlight = some (src, dst)) : s.mem.SameOutside (s.memAfterReset e) dst := by
  intro a ha
  rw [← Bool.not_eq_true, Region.contains_iff] at ha
  simp only [State.memAfterReset, h, Region.lengthIn]
  rw [Memory.read_fill, if_neg (by omega)]

theorem State.hostReset_of_engineAt {s : State} {k : Nat} {e : Engine} (h : s.engineAt k = some e) :
    s.hostReset k =
      .next (State.setEngineAt { s with mem := s.memAfterReset e, draws := s.draws + 1 } k
        (e.afterReset s.draws)) := by
  simp only [State.hostReset, h]

theorem State.lt_length_of_engineAt {s : State} {k : Nat} {e : Engine} (h : s.engineAt k = some e) :
    k < s.engines.length :=
  (List.getElem?_eq_some_iff.mp h).1

/-- Settles O37: the engine is replaced by its reset form, and the destination in flight is the region filled. -/
theorem resetClearsEngine : Obligations.ResetClearsEngine := by
  intro s u k e hmoves he
  rw [← hmoves.engineAt_eq] at he
  have hstep := hmoves.step_eq.trans (State.hostReset_of_engineAt he)
  have hengineAt (j : Nat) :=
    State.engineAt_setEngineAt { u with mem := u.memAfterReset e, draws := u.draws + 1 } j (e.afterReset u.draws)
      (State.lt_length_of_engineAt he)
  have hself := (hengineAt k).trans (if_pos rfl)
  have hother (j : Nat) (hj : j ≠ k) := (hengineAt j).trans (if_neg hj)
  obtain ⟨_, _, -, -, rfl⟩ := hmoves
  refine ⟨_, _, hstep, hself, Engine.readReg_afterReset e _, rfl, rfl, State.setEngineAt_platform _ _ _,
    State.setEngineAt_script _ _ _, State.setEngineAt_schedule _ _ _, State.setEngineAt_reads _ _ _,
    fun hidle => ?_, fun i src dst hi hregions hcount => ?_, fun i hi hcount => ?_, hother⟩
  all_goals rw [State.setEngineAt_mem]
  · exact State.memAfterReset_of_inFlight_none (Engine.inFlight_eq_none hidle)
  · have hflight : e.inFlight = some (src, dst) := by
      rw [Engine.inFlight_of_command hi, if_neg hcount, hregions]
    exact State.sameOutside_memAfterReset hflight
  · have hflight : e.inFlight = none := by
      rw [Engine.inFlight_of_command hi, if_pos hcount]
    exact State.memAfterReset_of_inFlight_none hflight

end Sys2Proof.Machine
end

