-- ==== Sys2Proof/Proofs/Agents.lean ====
section
/-! PROOFS. One step of an agent (40_command_cycle R122, R128; 60_exceptions R265): an engine's turn is the completion
of its command with the engine in focus, and a host action replaces at most one engine. -/

namespace Sys2Proof.Machine

/-! ### A step runs the pending command -/

theorem completion_of_command {s : State} {i : Instr} (h : s.engine.pending = some (.command i)) :
    completion s = exec i s := by
  simp only [completion, h]

theorem engineTurn_zero (s : State) : engineTurn 0 s = completion s := by
  simp only [engineTurn, State.swap]
  cases completion s <;> rfl

theorem classify_of_decodeTableWord {w : Nat} {i : Instr} (h : decodeTableWord 32 w = some i) :
    classify (tableWord 32 w) = .command i := by
  rw [decodeTableWord, if_pos (Nat.le_refl 32)] at h
  rw [classify]
  cases hdecode : decode (tableWord 32 w) with
  | error err =>
    rw [hdecode] at h
    cases h
  | ok j =>
    rw [hdecode] at h
    cases h
    rfl

/-- The engine that has just accepted the word has a step and is the first of the schedule. -/
theorem State.nextAgent_withFetchWord (s : State) (nbits w : Nat) :
    (s.withFetchWord nbits w).nextAgent = some (.engine 0, s.schedule) := by
  have henabled : (s.withFetchWord nbits w).enabled (.engine 0) = true := rfl
  have hschedule : (s.withFetchWord nbits w).schedule = .engine 0 :: s.schedule := rfl
  rw [State.nextAgent, hschedule, List.dropWhile_cons_of_neg (by simp [henabled])]

/-- Settles O43: the placed word is the focused engine's next turn, and an engine's turn completes its command with
that engine in focus. -/
theorem stepRunsDecodedInstruction : Obligations.StepRunsDecodedInstruction := by
  refine ⟨fun s w i hdecode => ?_, fun s u k e i hmoves hpending => ?_⟩
  · have hclassify := classify_of_decodeTableWord hdecode
    have hmoves : (s.withFetchWord 32 w).EngineMoves 0 (s.engine.accept (tableWord 32 w))
        { s with engine := s.engine.accept (tableWord 32 w) } :=
      ⟨s.schedule, s.nextAgent_withFetchWord 32 w, rfl, rfl⟩
    rw [hmoves.step_eq, engineTurn_zero, completion_of_command (congrArg some hclassify), Engine.accept_eq,
      hclassify]
  · have hengine := State.swap_engine hmoves.engineAt_eq
    have hcompletion := completion_of_command (s := u.swap k) (i := i) (by rw [hengine, hpending])
    refine ⟨hengine, ?_⟩
    rw [hmoves.step_eq]
    cases hexec : exec i (u.swap k) <;> simp only [engineTurn, hcompletion, hexec]

/-! ### An engine's turn ends its command -/

/-- `d` is the engine `e` after the completion of its command. -/
structure Engine.CompletesAs (e d : Engine) : Prop where
  pending : d.pending = none
  done : d.done = true
  busy : d.busy = false
  operands : e.SameOperands d

theorem State.EndsIn.completesAs {s t : State} (h : s.EndsIn t) : s.engine.CompletesAs t.engine :=
  ⟨h.pending, h.done, h.busy, h.operands⟩

theorem State.swap_engines_congr {u v : State} (hengine : u.engine = v.engine) (hpeers : u.peers = v.peers)
    (k : Nat) : (u.swap k).engines = (v.swap k).engines := by
  cases k with
  | zero => rw [State.swap, State.swap, State.engines, State.engines, hengine, hpeers]
  | succ k =>
    simp only [State.swap, hpeers]
    cases v.peers[k]? <;> simp only [State.engines, hengine, hpeers]

/-- The turn of an engine with a command pending replaces it by its completion, and no other engine. -/
theorem engineTurn_completes {s t : State} {k : Nat} {e : Engine} (he : s.engineAt k = some e)
    (hpending : e.pending ≠ none) (h : engineTurn k s = .next t) :
    ∃ d, e.CompletesAs d ∧ t.engines = s.engines.set k d ∧ t.script = s.script ∧ t.schedule = s.schedule := by
  obtain ⟨v, hv, rfl⟩ := engineTurn_cases h
  have hengine := State.swap_engine he
  have hends := endsIn_of_completion (hengine ▸ hpending) hv
  obtain ⟨hpeers, -, hscript, hschedule, -⟩ := hends.surroundings
  refine ⟨v.engine, hengine ▸ hends.completesAs, ?_, ?_, ?_⟩
  · rw [State.swap_engines_congr (u := v) (v := { s.swap k with engine := v.engine }) rfl hpeers k,
      State.swap_engine_swap he, State.setEngineAt_engines]
  · rw [State.swap_script, hscript, State.swap_script]
  · rw [State.swap_schedule, hschedule, State.swap_schedule]

theorem State.enabled_engine_iff {s : State} {k : Nat} :
    s.enabled (.engine k) = true ↔ ∃ e, s.engineAt k = some e ∧ e.pending ≠ none := by
  simp only [State.enabled]
  cases s.engineAt k with
  | none => simp
  | some e => simp [Option.isSome_iff_ne_none]

/-- The step of an engine that moves next: it has a command pending, and the step replaces it by its completion. -/
theorem step_of_engine {s : State} {k : Nat} {rest : List Agent} (hagent : s.nextAgent = some (.engine k, rest)) :
    ∃ e, s.engineAt k = some e ∧ e.pending ≠ none ∧ ∀ t, step s = .next t →
      ∃ d, e.CompletesAs d ∧ t.engines = s.engines.set k d ∧ t.script = s.script ∧ t.schedule = rest := by
  obtain ⟨e, he, hpending⟩ := State.enabled_engine_iff.mp (State.nextAgent_spec hagent).1
  refine ⟨e, he, hpending, fun t ht => ?_⟩
  have hmoves : s.EngineMoves k e { s with schedule := rest } := ⟨rest, hagent, he, rfl⟩
  rw [hmoves.step_eq] at ht
  exact engineTurn_completes hmoves.engineAt_eq hpending ht

/-- Settles O44: the engine's completion stands in its place. -/
theorem engineStepCompletesItsCommand : Obligations.EngineStepCompletesItsCommand := by
  intro s k rest hagent
  obtain ⟨e, he, hpending, hstep⟩ := step_of_engine hagent
  refine ⟨e, he, hpending, fun t ht => ?_⟩
  obtain ⟨d, hd, hengines, -, -⟩ := hstep t ht
  refine ⟨⟨d, ?_, hd.pending, hd.operands⟩, fun j hj => ?_⟩
  · rw [State.engineAt, hengines, List.getElem?_set_self (State.lt_length_of_engineAt he)]
  · rw [State.engineAt, hengines, List.getElem?_set_ne hj.symm, State.engineAt]

/-! ### A host action replaces at most one engine -/

theorem Engine.inFlight_of_pending_none {e : Engine} (h : e.pending = none) : e.inFlight = none := by
  simp only [Engine.inFlight, h]

/-- An engine with no regions in flight conflicts with none. -/
theorem State.engineConflict_of_pending_none {e : Engine} (h : e.pending = none) (s : State) (k : Nat) :
    s.engineConflict k e = false := by
  simp only [State.engineConflict, Engine.inFlight_of_pending_none h]

theorem State.pending_eq_none_iff_idle {s : State} (hinv : s.Inv) {k : Nat} {e : Engine}
    (he : s.engineAt k = some e) : e.pending = none ↔ e.busy = false := by
  obtain ⟨-, -, -, hengines⟩ := hinv
  obtain ⟨-, hpending, -, -⟩ := hengines e (State.mem_engines_of_engineAt he)
  exact hpending

/-- A host action leaves the engines, or replaces one that is idle or reset, by one that conflicts with no other. -/
theorem State.hostAct_engines {s t : State} {a : HostAction} (hinv : s.Inv) (h : s.hostAct a = .next t) :
    t.engines = s.engines ∨ ∃ k e d, s.engineAt k = some e ∧ (e.busy = false ∨ a = .reset k) ∧
      s.engineConflict k d = false ∧ t.engines = s.engines.set k d := by
  cases a with
  | wr word w =>
    obtain rfl | ⟨k, r, e, -, he, hidle, ⟨-, hconflict, rfl⟩ | ⟨-, rfl⟩⟩ := State.hostWrite_cases h
    · exact .inl rfl
    · exact .inr ⟨k, e, _, he, .inl hidle, hconflict, State.setEngineAt_engines _ _ _⟩
    · have hpending : (e.storeReg r w).pending = none := by
        rw [Engine.storeReg_pending, (State.pending_eq_none_iff_idle hinv he).mpr hidle]
      exact .inr ⟨k, e, _, he, .inl hidle, State.engineConflict_of_pending_none hpending s k,
        State.setEngineAt_engines _ _ _⟩
  | rd word =>
    cases h
    left
    obtain he | ⟨-, he⟩ | ⟨k, r, e, -, -, he⟩ := State.hostRead_cases s (4 * word) <;> rw [he] <;> rfl
  | mw addr bytes =>
    obtain ⟨-, -, rfl⟩ := State.hostMemWrite_cases h
    exact .inl rfl
  | mr addr n =>
    cases State.hostMemRead_cases h
    exact .inl rfl
  | reset k =>
    obtain ⟨e, he, rfl⟩ := State.hostReset_cases h
    exact .inr ⟨k, e, _, he, .inr rfl, State.engineConflict_of_pending_none (Engine.afterReset_pending e _) s k,
      State.setEngineAt_engines _ _ _⟩
  | poll k =>
    obtain ⟨e, -, rfl⟩ := State.hostPoll_cases h
    exact .inl rfl

theorem State.hostAct_length_engines {s t : State} {a : HostAction} (hinv : s.Inv) (h : s.hostAct a = .next t) :
    t.engines.length = s.engines.length := by
  obtain hengines | ⟨k, e, d, -, -, -, hengines⟩ := State.hostAct_engines hinv h
  · rw [hengines]
  · rw [hengines, List.length_set]

/-- A busy engine stays as it is, unless it is reset (10_state R23). -/
theorem State.hostAct_engineAt_of_busy {s t : State} {a : HostAction} (hinv : s.Inv) (h : s.hostAct a = .next t)
    {k : Nat} {e : Engine} (he : s.engineAt k = some e) (hbusy : e.busy = true) (ha : a ≠ .reset k) :
    t.engineAt k = some e := by
  obtain hengines | ⟨j, e', d, he', hwhy, -, hengines⟩ := State.hostAct_engines hinv h
  · rwa [State.engineAt, hengines]
  · have hne : j ≠ k := by
      rintro rfl
      cases he.symm.trans he'
      obtain hidle | rfl := hwhy
      · cases hbusy.symm.trans hidle
      · exact ha rfl
    rwa [State.engineAt, hengines, List.getElem?_set_ne hne]

/-- A host action uses up no turn of the schedule and adds no action to the script but itself. -/
theorem State.hostAct_script {s t : State} {a : HostAction} (h : s.hostAct a = .next t) :
    t.schedule = s.schedule ∧ (t.script = s.script ∨ t.script = a :: s.script) := by
  cases a with
  | wr word w =>
    obtain rfl | ⟨k, r, e, -, -, -, ⟨-, -, rfl⟩ | ⟨-, rfl⟩⟩ := State.hostWrite_cases h <;> simp
  | rd word =>
    cases h
    obtain he | ⟨-, he⟩ | ⟨k, r, e, -, -, he⟩ := State.hostRead_cases s (4 * word) <;> simp [he]
  | mw addr bytes =>
    obtain ⟨-, -, rfl⟩ := State.hostMemWrite_cases h
    simp
  | mr addr n =>
    cases State.hostMemRead_cases h
    simp
  | reset k =>
    obtain ⟨e, -, rfl⟩ := State.hostReset_cases h
    simp
  | poll k =>
    obtain ⟨e, -, rfl⟩ := State.hostPoll_cases h
    cases hbusy : e.busy <;> simp

end Sys2Proof.Machine
end

