-- ==== Sys2Proof/Proofs/Invariants.lean ====
section
/-! PROOFS. The invariants (10_state R26, R33, R38; 20_memory R60; 60_exceptions R265): they hold at reset and every
step keeps them; and the canonical form makes equal memories equal data. -/

namespace Sys2Proof.Machine

/-! ### The machine's invariant -/

/-- Settles O39: an engine at power-on meets its invariant, and memory lists nothing. -/
theorem resetMeetsInvariants : Obligations.ResetMeetsInvariants := by
  refine ⟨⟨by decide, ⟨List.Pairwise.nil, List.forall_mem_nil _⟩, List.forall_mem_nil _, ?_⟩,
    List.pairwise_singleton _ _⟩
  exact List.forall_mem_singleton.mpr Engine.powerOn_inv

theorem State.hostTurn_inv {s t : State} (h : s.Inv) (ht : s.hostTurn = .next t) : t.Inv := by
  obtain ⟨-, rfl⟩ | ⟨a, rest, -, hact⟩ := State.hostTurn_cases ht
  · exact h
  · exact State.hostAct_inv (s := { s with script := rest }) h hact

/-- Settles O40: a step is a host's turn or an engine's turn, and both keep the invariant. -/
theorem stepKeepsInvariant : Obligations.StepKeepsInvariant := by
  intro s t hinv hstep
  obtain ⟨-, rfl⟩ | ⟨rest, -, hturn⟩ | ⟨k, rest, -, hturn⟩ := step_cases hstep
  · exact hinv
  · exact State.hostTurn_inv (s := { s with schedule := rest }) hinv hturn
  · exact engineTurn_inv (s := { s with schedule := rest }) hinv hturn

/-! ### No conflicting regions in flight -/

theorem Region.overlaps_comm (r t : Region) : r.overlaps t = t.overlaps r := by
  rw [Bool.eq_iff_iff, Region.overlaps_iff, Region.overlaps_iff]
  simp only [and_comm]

theorem regionsConflict_comm (x y : Region × Region) : regionsConflict x y = regionsConflict y x := by
  rw [regionsConflict, regionsConflict, Region.overlaps_comm x.2 y.1, Region.overlaps_comm x.2 y.2,
    Region.overlaps_comm x.1 y.2]
  ac_rfl

/-- What `State.NoConflict` asks of every two engines. -/
def Engine.Compatible (e d : Engine) : Prop :=
  ∀ x ∈ e.inFlight, ∀ y ∈ d.inFlight, regionsConflict x y = false

theorem Engine.Compatible.symm {e d : Engine} (h : e.Compatible d) : d.Compatible e :=
  fun x hx y hy => (regionsConflict_comm x y).trans (h y hy x hx)

theorem State.compatible_of_engineConflict_eq_false {s : State} {k : Nat} {e : Engine}
    (h : s.engineConflict k e = false) : ∀ d ∈ s.engines.eraseIdx k, e.Compatible d := by
  intro d hd x hx y hy
  rw [← Bool.not_eq_true, State.engineConflict_iff] at h
  rw [← Bool.not_eq_true]
  exact fun hconflict => h ⟨d, hd, x, hx, y, hy, hconflict⟩

/-- Replacing one engine by one that conflicts with no other: the new list is, up to order, the new engine and the
engines that were there besides the old one. -/
theorem State.noConflict_of_set {s t : State} {k : Nat} {d : Engine} (h : s.NoConflict)
    (hd : s.engineConflict k d = false) (ht : t.engines = s.engines.set k d) : t.NoConflict := by
  show t.engines.Pairwise Engine.Compatible
  by_cases hk : k < s.engines.length
  · have hothers : (s.engines.eraseIdx k).Pairwise Engine.Compatible := h.sublist (List.eraseIdx_sublist _ k)
    have hcons := List.pairwise_cons.mpr ⟨State.compatible_of_engineConflict_eq_false hd, hothers⟩
    rw [ht]
    exact hcons.perm (List.set_perm_cons_eraseIdx hk d).symm Engine.Compatible.symm
  · rw [ht, List.set_eq_of_length_le (Nat.not_lt.mp hk)]
    exact h

/-- Settles O41: a step replaces at most one engine, by one with nothing in flight or by one whose accept found no
conflict. -/
theorem stepKeepsNoConflict : Obligations.StepKeepsNoConflict := by
  intro s t hinv hconf hstep
  obtain ⟨-, rfl⟩ | ⟨rest, -, hturn⟩ | ⟨k, rest, hagent, -⟩ := step_cases hstep
  · exact hconf
  · obtain ⟨-, rfl⟩ | ⟨a, script, -, hact⟩ := State.hostTurn_cases hturn
    · exact hconf
    · obtain hengines | ⟨k, e, d, -, -, hd, hengines⟩ :=
        State.hostAct_engines (s := { s with script := script, schedule := rest }) hinv hact
      · rw [State.NoConflict, hengines]
        exact hconf
      · exact State.noConflict_of_set hconf hd hengines
  · obtain ⟨e, -, -, hcompletes⟩ := step_of_engine hagent
    obtain ⟨d, hd, hengines, -, -⟩ := hcompletes t hstep
    exact State.noConflict_of_set hconf (State.engineConflict_of_pending_none hd.pending s k) hengines

/-! ### Canonical memories -/

theorem Memory.read_of_mem {m : Memory} (h : m.Pairwise fun x y => x.1 < y.1) {c : Host.Cell} (hc : c ∈ m) :
    m.read c.1 = c.2 := by
  induction m with
  | nil => cases hc
  | cons d m ih =>
    obtain ⟨hd, hm⟩ := List.pairwise_cons.mp h
    rw [Memory.read]
    obtain rfl | hc := List.mem_cons.mp hc
    · rw [if_pos rfl]
    · rw [if_neg (Nat.ne_of_lt (hd c hc)), ih hm hc]

theorem Memory.mem_of_read {m : Memory} {a : Nat} (h : m.read a ≠ Memory.unlisted) : (a, m.read a) ∈ m := by
  induction m with
  | nil => exact absurd rfl h
  | cons d m ih =>
    rw [Memory.read] at h ⊢
    split at h
    case isTrue hd =>
      rw [if_pos hd, ← hd]
      exact List.mem_cons_self
    case isFalse hd =>
      rw [if_neg hd]
      exact List.mem_cons_of_mem _ (ih h)

/-- A canonical memory lists exactly the bytes that differ from an unlisted one. -/
theorem Memory.mem_iff_read {m : Memory} (h : m.wf) {c : Host.Cell} :
    c ∈ m ↔ m.read c.1 = c.2 ∧ c.2 ≠ Memory.unlisted := by
  obtain ⟨hsorted, hlisted⟩ := h
  constructor
  · exact fun hc => ⟨Memory.read_of_mem hsorted hc, hlisted c hc⟩
  · rintro ⟨hread, hne⟩
    have hmem := Memory.mem_of_read (hread ▸ hne)
    rwa [hread] at hmem

theorem Memory.nodup_of_sorted {m : Memory} (h : m.Pairwise fun x y => x.1 < y.1) : m.Nodup :=
  h.imp fun hlt heq => Nat.ne_of_lt hlt (congrArg Prod.fst heq)

/-- Settles O42: both list the same bytes, and a set of bytes has one order by address. -/
theorem canonicalMemoryExtensional : Obligations.CanonicalMemoryExtensional := by
  intro m m' h h' hread
  have hmem (c : Host.Cell) : c ∈ m ↔ c ∈ m' := by
    rw [Memory.mem_iff_read h, Memory.mem_iff_read h', hread]
  obtain ⟨hsorted, -⟩ := h
  obtain ⟨hsorted', -⟩ := h'
  have hperm := (List.perm_ext_iff_of_nodup (Memory.nodup_of_sorted hsorted) (Memory.nodup_of_sorted hsorted')).mpr
    hmem
  exact hperm.eq_of_pairwise (fun a b _ _ hab hba => absurd hab (Nat.lt_asymm hba)) hsorted hsorted'

end Sys2Proof.Machine
end

