-- ==== Sys2Proof/Proofs/Liveness.lean ====
section
/-! PROOFS. Bounded liveness (70_reset_and_hazards R293, 30_encoding R102): the turns that are left before only the host
can move get fewer with every step, so an accepted command completes and a POLL loop ends. -/

namespace Sys2Proof.Machine

/-! ### The turns left -/

/-- How many engines have a command pending. -/
def State.pendingCount (s : State) : Nat := s.engines.countP fun e => e.pending.isSome

/-- A bound on the steps before only the host can move: each step of the schedule uses up a turn of it, and after it
each step completes a pending command, of which there are at most as many as engines (log entry 1). -/
def State.turnsLeft (s : State) : Nat :=
  s.schedule.length + if s.schedule = [] then s.pendingCount else s.engines.length

theorem State.pendingCount_le (s : State) : s.pendingCount ≤ s.engines.length := List.countP_le_length

theorem State.turnsLeft_le (s : State) : s.turnsLeft ≤ s.schedule.length + s.engines.length := by
  have hle := s.pendingCount_le
  unfold State.turnsLeft
  split <;> omega

theorem State.pendingCount_pos {s : State} {k : Nat} {e : Engine} (he : s.engineAt k = some e)
    (hpending : e.pending ≠ none) : 0 < s.pendingCount :=
  List.countP_pos_iff.mpr ⟨e, State.mem_engines_of_engineAt he, Option.isSome_iff_ne_none.mpr hpending⟩

theorem State.turnsLeft_pos {s : State} {k : Nat} {e : Engine} (he : s.engineAt k = some e)
    (hpending : e.pending ≠ none) : 0 < s.turnsLeft := by
  have hpos := State.pendingCount_pos he hpending
  have hle := s.pendingCount_le
  unfold State.turnsLeft
  split <;> omega

theorem State.turnsLeft_of_schedule_ne_nil {s : State} (h : s.schedule ≠ []) :
    s.turnsLeft = s.schedule.length + s.engines.length := by
  rw [State.turnsLeft, if_neg h]

/-- A step that uses up a turn of the schedule leaves fewer turns. -/
theorem State.turnsLeft_lt_of_schedule {s t : State} (hschedule : t.schedule.length < s.schedule.length)
    (hengines : t.engines.length = s.engines.length) : t.turnsLeft < s.turnsLeft := by
  have hne : s.schedule ≠ [] := List.ne_nil_of_length_pos (Nat.zero_lt_of_lt hschedule)
  have hle := t.turnsLeft_le
  rw [State.turnsLeft_of_schedule_ne_nil hne]
  omega

/-- Completing a command leaves one pending command fewer. -/
theorem State.pendingCount_lt_of_completes {s t : State} {k : Nat} {e d : Engine} (he : s.engineAt k = some e)
    (hpending : e.pending ≠ none) (hd : d.pending = none) (ht : t.engines = s.engines.set k d) :
    t.pendingCount < s.pendingCount := by
  have hpos := State.pendingCount_pos he hpending
  obtain ⟨hk, hget⟩ := List.getElem?_eq_some_iff.mp he
  have hold : s.engines[k].pending.isSome = true := hget ▸ Option.isSome_iff_ne_none.mpr hpending
  rw [State.pendingCount] at hpos
  rw [State.pendingCount, State.pendingCount, ht, List.countP_set hk, if_pos hold, hd, Option.isSome_none,
    if_neg Bool.false_ne_true]
  omega

/-- The step of an engine leaves fewer turns. -/
theorem turnsLeft_lt_of_engine {s t : State} {k : Nat} {rest : List Agent}
    (hagent : s.nextAgent = some (.engine k, rest)) (hstep : step s = .next t) : t.turnsLeft < s.turnsLeft := by
  obtain ⟨e, he, hpending, hcompletes⟩ := step_of_engine hagent
  obtain ⟨d, hd, hengines, -, hschedule⟩ := hcompletes t hstep
  have hlen : t.engines.length = s.engines.length := by rw [hengines, List.length_set]
  by_cases hempty : s.schedule = []
  · have hrest : rest = [] := by
      obtain hlt | ⟨hrest, -⟩ := (State.nextAgent_spec hagent).2
      · rw [hempty] at hlt
        cases hlt
      · exact hrest
    have hlt := State.pendingCount_lt_of_completes he hpending hd.pending hengines
    rw [State.turnsLeft, State.turnsLeft, hschedule, hrest, hempty, if_pos rfl, if_pos rfl]
    exact Nat.add_lt_add_left hlt _
  · refine State.turnsLeft_lt_of_schedule ?_ hlen
    rw [hschedule]
    obtain hlt | ⟨hrest, -⟩ := (State.nextAgent_spec hagent).2
    · exact hlt
    · rw [hrest]
      exact List.length_pos_iff.mpr hempty

/-! ### Which agent moves -/

/-- The default is the host, or none, only when no engine has a command pending. -/
theorem State.pending_eq_none_of_defaultAgent {s : State} (h : ∀ k, s.defaultAgent ≠ some (.engine k)) {k : Nat}
    {e : Engine} (he : s.engineAt k = some e) : e.pending = none := by
  unfold State.defaultAgent at h
  split at h
  next j hj => exact absurd rfl (h j)
  next hnone =>
    have hidle := List.findIdx?_eq_none_iff.mp hnone e (State.mem_engines_of_engineAt he)
    exact Option.isNone_iff_eq_none.mp (Option.isSome_eq_false_iff.mp hidle)

theorem State.defaultAgent_of_nextAgent_eq_none {s : State} (h : s.nextAgent = none) : s.defaultAgent = none := by
  unfold State.nextAgent at h
  split at h
  · cases h
  · exact Option.map_eq_none_iff.mp h

theorem State.defaultAgent_ne_none_of_script {s : State} (h : s.script ≠ []) : s.defaultAgent ≠ none := by
  unfold State.defaultAgent
  split
  · exact Option.some_ne_none _
  · rw [if_neg (by rwa [List.isEmpty_iff])]
    exact Option.some_ne_none _

/-- While an engine has a command pending the host moves only on a turn of the schedule. -/
theorem State.schedule_shrinks_of_host {s : State} {rest : List Agent} (hagent : s.nextAgent = some (.host, rest))
    {k : Nat} {e : Engine} (he : s.engineAt k = some e) (hpending : e.pending ≠ none) :
    rest.length < s.schedule.length := by
  obtain hlt | ⟨-, hdefault⟩ := (State.nextAgent_spec hagent).2
  · exact hlt
  · refine absurd (State.pending_eq_none_of_defaultAgent (fun j hj => ?_) he) hpending
    cases hdefault.symm.trans hj

/-- The step of the host takes the first action of its script. -/
theorem step_of_host {s : State} {rest : List Agent} (hagent : s.nextAgent = some (.host, rest)) :
    ∃ a as, s.script = a :: as ∧ step s = State.hostAct { s with script := as, schedule := rest } a := by
  have henabled := (State.nextAgent_spec hagent).1
  cases hscript : s.script with
  | nil => simp [State.enabled, hscript] at henabled
  | cons a as =>
    have hmoves : s.HostMoves a { s with script := as, schedule := rest } := ⟨as, rest, hagent, hscript, rfl⟩
    exact ⟨a, as, rfl, hmoves.step_eq⟩

/-! ### Runs that end -/

/-- The run has reached a state that meets the goal, or has stopped by a fault or a refusal. -/
def MeetsOrStops (goal : State → Prop) : Host.Outcome State Fault Refusal → Prop
  | .next t => goal t
  | .fault _ => True
  | .refused _ => True

/-- If every step from a state of `inv` meets the goal or stays in `inv` with a smaller measure, the goal is met, or the
run stops, within the measure. -/
theorem exists_run_meetsOrStops {inv goal : State → Prop} {measure : State → Nat}
    (hpos : ∀ s, inv s → 0 < measure s)
    (hstep : ∀ s t, inv s → step s = .next t → goal t ∨ (inv t ∧ measure t < measure s))
    {s : State} (hs : inv s) : ∃ n ≤ measure s, MeetsOrStops goal (Sys2Proof.core.run n s) := by
  induction hm : measure s using Nat.strongRecOn generalizing s with
  | ind m ih =>
    subst hm
    cases hnext : step s with
    | next t =>
      obtain hgoal | ⟨ht, hlt⟩ := hstep s t hs hnext
      · exact ⟨1, hpos s hs, by rwa [run_next hnext]⟩
      · obtain ⟨n, hn, hmeets⟩ := ih (measure t) hlt ht rfl
        exact ⟨n + 1, Nat.lt_of_le_of_lt hn hlt, by rwa [run_next hnext]⟩
    | fault f => exact ⟨1, hpos s hs, by rw [run_fault hnext]; trivial⟩
    | refused r => exact ⟨1, hpos s hs, by rw [run_refused hnext]; trivial⟩

/-! ### An accepted command completes -/

/-- Engine `k` is `e` with its command pending, and the host will not reset it. -/
structure State.Awaits (k : Nat) (e : Engine) (s : State) : Prop where
  inv : s.Inv
  engine : s.engineAt k = some e
  pending : e.pending ≠ none
  noReset : .reset k ∉ s.script

/-- A host action leaves the pending engine as it is. -/
theorem State.Awaits.hostAct {s t : State} {k : Nat} {e : Engine} {a : HostAction} {as : List HostAction}
    {rest : List Agent} (h : s.Awaits k e) (hscript : s.script = a :: as)
    (hact : State.hostAct { s with script := as, schedule := rest } a = .next t) : t.Awaits k e := by
  obtain ⟨hinv, he, hpending, hreset⟩ := h
  rw [hscript, List.mem_cons, not_or] at hreset
  obtain ⟨ha, has⟩ := hreset
  have hbusy : e.busy = true :=
    Bool.eq_true_of_not_eq_false (mt (State.pending_eq_none_iff_idle hinv he).mpr hpending)
  refine ⟨State.hostAct_inv (s := { s with script := as, schedule := rest }) hinv hact,
    State.hostAct_engineAt_of_busy (s := { s with script := as, schedule := rest }) hinv hact he hbusy (Ne.symm ha),
    hpending, ?_⟩
  obtain ⟨-, hkeep | hagain⟩ := State.hostAct_script hact
  · rwa [hkeep]
  · rw [hagain, List.mem_cons, not_or]
    exact ⟨ha, has⟩

/-- A step completes the awaited command, or leaves fewer turns before it. -/
theorem State.Awaits.step {s t : State} {k : Nat} {e : Engine} (h : s.Awaits k e)
    (hstep : Machine.step s = .next t) :
    (∃ d, t.engineAt k = some d ∧ e.CompletesAs d) ∨ (t.Awaits k e ∧ t.turnsLeft < s.turnsLeft) := by
  obtain ⟨hnone, -⟩ | ⟨rest, hagent, -⟩ | ⟨j, rest, hagent, -⟩ := step_cases hstep
  · have hdefault := State.defaultAgent_of_nextAgent_eq_none hnone
    exact absurd (State.pending_eq_none_of_defaultAgent (by simp [hdefault]) h.engine) h.pending
  · obtain ⟨a, as, hscript, hact⟩ := step_of_host hagent
    rw [hact] at hstep
    have hschedule : t.schedule = rest := (State.hostAct_script hstep).1
    refine .inr ⟨h.hostAct hscript hstep, State.turnsLeft_lt_of_schedule ?_ ?_⟩
    · rw [hschedule]
      exact State.schedule_shrinks_of_host hagent h.engine h.pending
    · exact State.hostAct_length_engines (s := { s with script := as, schedule := rest }) h.inv hstep
  · obtain ⟨e', he', -, hcompletes⟩ := step_of_engine hagent
    obtain ⟨d, hd, hengines, hscript, -⟩ := hcompletes t hstep
    by_cases hj : j = k
    · subst hj
      cases he'.symm.trans h.engine
      refine .inl ⟨d, ?_, hd⟩
      rw [State.engineAt, hengines, List.getElem?_set_self (State.lt_length_of_engineAt h.engine)]
    · have hsame : t.engineAt k = some e := by
        rw [State.engineAt, hengines, List.getElem?_set_ne hj]
        exact h.engine
      exact .inr ⟨⟨stepKeepsInvariant s t h.inv hstep, hsame, h.pending, hscript ▸ h.noReset⟩,
        turnsLeft_lt_of_engine hagent hstep⟩

/-- Settles O45: the turns left are at most the schedule's and the engines'. -/
theorem acceptedCommandCompletes : Obligations.AcceptedCommandCompletes := by
  intro s k e hinv he hpending hreset
  obtain ⟨n, hn, hmeets⟩ := exists_run_meetsOrStops (inv := State.Awaits k e) (measure := State.turnsLeft)
    (fun s hs => State.turnsLeft_pos hs.engine hs.pending) (fun s t hs => hs.step) ⟨hinv, he, hpending, hreset⟩
  refine ⟨n, Nat.le_trans hn s.turnsLeft_le, ?_⟩
  cases hrun : Sys2Proof.core.run n s with
  | next t =>
    rw [hrun] at hmeets
    obtain ⟨d, hd, hcompletes⟩ := hmeets
    exact ⟨d, hd, hcompletes.pending, hcompletes.done, hcompletes.busy, hcompletes.operands⟩
  | fault f => trivial
  | refused r => trivial

/-! ### A POLL loop ends -/

/-- The next host action is a POLL of engine `k`. -/
structure State.Polls (k : Nat) (as : List HostAction) (s : State) : Prop where
  inv : s.Inv
  script : s.script = .poll k :: as

/-- The POLL has left the script, and its last reading is a STATUS word whose BUSY is 0. -/
def State.Polled (as : List HostAction) (t : State) : Prop :=
  t.script = as ∧ ∃ w : Word, t.reads.getLast? = some (.word w) ∧ w.getLsbD 0 = false

/-- One turn of POLL reads STATUS, and stays in the script while BUSY reads 1. -/
theorem State.hostPoll_of_engineAt {s : State} {k : Nat} {e : Engine} (h : s.engineAt k = some e) :
    s.hostPoll k =
      .next (State.record { s with script := if e.busy = true then .poll k :: s.script else s.script }
        (.word e.status)) := by
  simp only [State.hostPoll, h, Engine.readReg]

/-- A step ends the POLL, or leaves fewer turns before it does. -/
theorem State.Polls.step {s t : State} {k : Nat} {as : List HostAction} (h : s.Polls k as)
    (hstep : Machine.step s = .next t) : t.Polled as ∨ (t.Polls k as ∧ t.turnsLeft < s.turnsLeft) := by
  have hinv := stepKeepsInvariant s t h.inv hstep
  obtain ⟨hnone, -⟩ | ⟨rest, hagent, -⟩ | ⟨j, rest, hagent, -⟩ := step_cases hstep
  · refine absurd (State.defaultAgent_of_nextAgent_eq_none hnone) (State.defaultAgent_ne_none_of_script ?_)
    rw [h.script]
    exact List.cons_ne_nil _ _
  · have hmoves : s.HostMoves (.poll k) { s with script := as, schedule := rest } :=
      ⟨as, rest, hagent, h.script, rfl⟩
    rw [hmoves.step_eq] at hstep
    obtain ⟨e, he, rfl⟩ := State.hostPoll_cases hstep
    cases hbusy : e.busy with
    | false => exact .inl ⟨rfl, e.status, List.getLast?_concat, hbusy⟩
    | true =>
      rw [hbusy, if_pos rfl] at hinv
      have hpending : e.pending ≠ none := fun hnone => by
        cases hbusy.symm.trans ((State.pending_eq_none_iff_idle h.inv he).mp hnone)
      exact .inr ⟨⟨hinv, rfl⟩, State.turnsLeft_lt_of_schedule
        (State.schedule_shrinks_of_host hagent he hpending) rfl⟩
  · obtain ⟨e, -, -, hcompletes⟩ := step_of_engine hagent
    obtain ⟨d, -, -, hscript, -⟩ := hcompletes t hstep
    exact .inr ⟨⟨hinv, hscript.trans h.script⟩, turnsLeft_lt_of_engine hagent hstep⟩

/-- Settles O46: the host polls again only while the schedule lasts or a command is pending. -/
theorem pollEnds : Obligations.PollEnds := by
  refine ⟨fun s u k e hmoves he => ?_, fun s k as hinv hscript => ?_⟩
  · rw [← hmoves.engineAt_eq] at he
    rw [hmoves.step_eq, State.hostAct, State.hostPoll_of_engineAt he]
    refine ⟨fun hbusy => ?_, fun hidle => ?_⟩
    · rw [Engine.busy, statusBusy, hbusy, if_pos rfl, State.record]
    · rw [Engine.busy, statusBusy, hidle, if_neg Bool.false_ne_true, State.record]
  · obtain ⟨n, hn, hmeets⟩ := exists_run_meetsOrStops (inv := State.Polls k as) (goal := State.Polled as)
      (measure := fun s => s.turnsLeft + 1) (fun s _ => Nat.succ_pos _)
      (fun s t hs ht => (hs.step ht).imp_right (And.imp_right Nat.succ_lt_succ)) ⟨hinv, hscript⟩
    refine ⟨n, Nat.le_trans hn (Nat.succ_le_succ s.turnsLeft_le), ?_⟩
    cases hrun : Sys2Proof.core.run n s with
    | next t =>
      rw [hrun] at hmeets
      exact hmeets
    | fault f => trivial
    | refused r => trivial

end Sys2Proof.Machine
end
